-- ==== Sys2Proof/Word.lean ====
section
/-! DEFINITION. The two bit-vector types of the LC-4 core: the 16-bit word (00_scope.md R5: register,
instruction, memory word and address) and the 3-bit register number (10_state.md R21). The readings
of a word as an integer stand in Machine/Operands.lean. -/

namespace Sys2Proof

/-- A 16-bit word: a register, an instruction, a memory word or a word address (R5). -/
abbrev Word := BitVec 16

/-- A register number, a 3-bit field; the value i names Ri (R21, R63). -/
abbrev Reg := BitVec 3

end Sys2Proof
end

