-- ==== Sys2Proof/Syntax.lean ====
section
/-! DEFINITION. The instructions of the LC-4 core: one constructor per row of spec/opcode_table.json,
in the table's order. Operands are the fields of 30_encoding.md R61 and R62, unextended; don't-care
bits (R66) are no operands. The four rows ILLEGAL (R67) carry the whole instruction word. -/

namespace Sys2Proof

inductive Instr where
  -- Branch, 41_branch.md
  | nop (imm9 : BitVec 9)
  | brp (imm9 : BitVec 9)
  | brz (imm9 : BitVec 9)
  | brzp (imm9 : BitVec 9)
  | brn (imm9 : BitVec 9)
  | brnp (imm9 : BitVec 9)
  | brnz (imm9 : BitVec 9)
  | brnzp (imm9 : BitVec 9)
  -- Arithmetic, 42_arithmetic.md
  | add (d s t : Reg)
  | mul (d s t : Reg)
  | sub (d s t : Reg)
  | div (d s t : Reg)
  | addi (d s : Reg) (imm5 : BitVec 5)
  -- Compare, 43_compare.md
  | cmp (s t : Reg)
  | cmpu (s t : Reg)
  | cmpi (s : Reg) (imm7 : BitVec 7)
  | cmpiu (s : Reg) (uimm7 : BitVec 7)
  -- Jump to subroutine, 48_control_transfer.md
  | jsrr (s : Reg)
  | jsr (imm11 : BitVec 11)
  -- Logical, 47_logical.md
  | and (d s t : Reg)
  | not (d s : Reg)
  | or (d s t : Reg)
  | xor (d s t : Reg)
  | andi (d s : Reg) (imm5 : BitVec 5)
  -- Load and store, 44_load_store.md
  | ldr (d s : Reg) (imm6 : BitVec 6)
  | str (t s : Reg) (imm6 : BitVec 6)
  -- Return from trap, 48_control_transfer.md
  | rti
  -- Constant, 45_constant.md
  | const (d : Reg) (imm9 : BitVec 9)
  -- Shift and modulo, 46_shift_mod.md
  | sll (d s : Reg) (uimm4 : BitVec 4)
  | sra (d s : Reg) (uimm4 : BitVec 4)
  | srl (d s : Reg) (uimm4 : BitVec 4)
  | mod (d s t : Reg)
  -- Jump, 48_control_transfer.md
  | jmpr (s : Reg)
  | jmp (imm11 : BitVec 11)
  -- High constant, 45_constant.md
  | hiconst (d : Reg) (uimm8 : BitVec 8)
  -- Trap, 48_control_transfer.md
  | trap (uimm8 : BitVec 8)
  -- Illegal words, 30_encoding.md R67, each with the word itself
  | illegal0011 (word : Word)
  | illegal1011 (word : Word)
  | illegal1110 (word : Word)
  | illegal1101 (word : Word)
  deriving DecidableEq, Repr

end Sys2Proof
end

