-- ==== Sys2Proof/WellFormed.lean ====
section
/-! DEFINITION. When an instruction is well-formed. Every operand field of the 36 defined instructions
has exactly the field's width (30_encoding.md R61), so every value of it is an encoding's; the one
check left is that an illegal row's word lies in that row's encodings (R67, opcode_table.json). -/

namespace Sys2Proof

/-- The word `w` lies in a row of opcode_table.json: its bits under `mask` are `bits`. -/
def inRow (mask bits w : Word) : Bool := w &&& mask == bits

/-- The checks on an instruction: an illegal row's word is one of that row's (R67). -/
def Instr.wellFormed (i : Instr) : Bool :=
  match i with
  | .nop _ => true
  | .brp _ => true
  | .brz _ => true
  | .brzp _ => true
  | .brn _ => true
  | .brnp _ => true
  | .brnz _ => true
  | .brnzp _ => true
  | .add _ _ _ => true
  | .mul _ _ _ => true
  | .sub _ _ _ => true
  | .div _ _ _ => true
  | .addi _ _ _ => true
  | .cmp _ _ => true
  | .cmpu _ _ => true
  | .cmpi _ _ => true
  | .cmpiu _ _ => true
  | .jsrr _ => true
  | .jsr _ => true
  | .and _ _ _ => true
  | .not _ _ => true
  | .or _ _ _ => true
  | .xor _ _ _ => true
  | .andi _ _ _ => true
  | .ldr _ _ _ => true
  | .str _ _ _ => true
  | .rti => true
  | .const _ _ => true
  | .sll _ _ _ => true
  | .sra _ _ _ => true
  | .srl _ _ _ => true
  | .mod _ _ _ => true
  | .jmpr _ => true
  | .jmp _ => true
  | .hiconst _ _ => true
  | .trap _ => true
  | .illegal0011 w => inRow 0xF000#16 0x3000#16 w
  | .illegal1011 w => inRow 0xF000#16 0xB000#16 w
  | .illegal1110 w => inRow 0xF000#16 0xE000#16 w
  | .illegal1101 w => inRow 0xF100#16 0xD000#16 w

end Sys2Proof
end

