-- ==== Sys2Proof/Decode.lean ====
section
/-! DEFINITION. Decoding (30_encoding.md R60 to R70): a total function from the 16-bit word, one
instruction a word; the illegal words (R67) decode to the constructors that name them. After it the
encoder, written from the same tables. Field positions and selector values are the spec's decision D7
(log 7). -/

namespace Sys2Proof

/-- The register field d = I[11:9] (R61): also r of F-MEM and s' of the compares. -/
def fieldD (w : Word) : Reg := w.extractLsb' 9 3

/-- The register field s = I[8:6] (R61). -/
def fieldS (w : Word) : Reg := w.extractLsb' 6 3

/-- The register field t = I[2:0] (R61). -/
def fieldT (w : Word) : Reg := w.extractLsb' 0 3

/-- IMM5 = I[4:0] (R61). -/
def fieldImm5 (w : Word) : BitVec 5 := w.extractLsb' 0 5

/-- IMM6 = I[5:0] (R61). -/
def fieldImm6 (w : Word) : BitVec 6 := w.extractLsb' 0 6

/-- IMM7 = I[6:0] (R61). -/
def fieldImm7 (w : Word) : BitVec 7 := w.extractLsb' 0 7

/-- IMM9 = I[8:0] (R61). -/
def fieldImm9 (w : Word) : BitVec 9 := w.extractLsb' 0 9

/-- IMM11 = I[10:0] (R61). -/
def fieldImm11 (w : Word) : BitVec 11 := w.extractLsb' 0 11

/-- UIMM4 = I[3:0] (R61). -/
def fieldUimm4 (w : Word) : BitVec 4 := w.extractLsb' 0 4

/-- UIMM8 = I[7:0] (R61). -/
def fieldUimm8 (w : Word) : BitVec 8 := w.extractLsb' 0 8

/-- Opcode 0000: the condition mask nzp = I[11:9] picks the mnemonic (R65, R121 to R128). -/
def decodeBranch (w : Word) : Instr :=
  match w.extractLsb' 9 3 with
  | 0b000#3 => .nop (fieldImm9 w)
  | 0b001#3 => .brp (fieldImm9 w)
  | 0b010#3 => .brz (fieldImm9 w)
  | 0b011#3 => .brzp (fieldImm9 w)
  | 0b100#3 => .brn (fieldImm9 w)
  | 0b101#3 => .brnp (fieldImm9 w)
  | 0b110#3 => .brnz (fieldImm9 w)
  | 0b111#3 => .brnzp (fieldImm9 w)

/-- Opcode 0001: I[5] = 1 is ADDI; else I[4:3] selects (R65). -/
def decodeArith (w : Word) : Instr :=
  match w.extractLsb' 5 1 with
  | 0b1#1 => .addi (fieldD w) (fieldS w) (fieldImm5 w)
  | 0b0#1 =>
    match w.extractLsb' 3 2 with
    | 0b00#2 => .add (fieldD w) (fieldS w) (fieldT w)
    | 0b01#2 => .mul (fieldD w) (fieldS w) (fieldT w)
    | 0b10#2 => .sub (fieldD w) (fieldS w) (fieldT w)
    | 0b11#2 => .div (fieldD w) (fieldS w) (fieldT w)

/-- Opcode 0010: I[8:7] selects; the first source is I[11:9]; CMP and CMPU ignore I[6:3] (R65, R66). -/
def decodeCompare (w : Word) : Instr :=
  match w.extractLsb' 7 2 with
  | 0b00#2 => .cmp (fieldD w) (fieldT w)
  | 0b01#2 => .cmpu (fieldD w) (fieldT w)
  | 0b10#2 => .cmpi (fieldD w) (fieldImm7 w)
  | 0b11#2 => .cmpiu (fieldD w) (fieldImm7 w)

/-- Opcode 0100: I[11] selects; JSRR ignores I[10:9] and I[5:0] (R65, R66). -/
def decodeJsr (w : Word) : Instr :=
  match w.extractLsb' 11 1 with
  | 0b0#1 => .jsrr (fieldS w)
  | 0b1#1 => .jsr (fieldImm11 w)

/-- Opcode 0101: I[5] = 1 is ANDI; else I[4:3] selects; NOT ignores t (R65, R66). -/
def decodeLogic (w : Word) : Instr :=
  match w.extractLsb' 5 1 with
  | 0b1#1 => .andi (fieldD w) (fieldS w) (fieldImm5 w)
  | 0b0#1 =>
    match w.extractLsb' 3 2 with
    | 0b00#2 => .and (fieldD w) (fieldS w) (fieldT w)
    | 0b01#2 => .not (fieldD w) (fieldS w)
    | 0b10#2 => .or (fieldD w) (fieldS w) (fieldT w)
    | 0b11#2 => .xor (fieldD w) (fieldS w) (fieldT w)

/-- Opcode 1010: I[5:4] selects; MOD ignores I[3] (R65, R66). -/
def decodeShift (w : Word) : Instr :=
  match w.extractLsb' 4 2 with
  | 0b00#2 => .sll (fieldD w) (fieldS w) (fieldUimm4 w)
  | 0b01#2 => .sra (fieldD w) (fieldS w) (fieldUimm4 w)
  | 0b10#2 => .srl (fieldD w) (fieldS w) (fieldUimm4 w)
  | 0b11#2 => .mod (fieldD w) (fieldS w) (fieldT w)

/-- Opcode 1100: I[11] selects; JMPR ignores I[10:9] and I[5:0] (R65, R66). -/
def decodeJump (w : Word) : Instr :=
  match w.extractLsb' 11 1 with
  | 0b0#1 => .jmpr (fieldS w)
  | 0b1#1 => .jmp (fieldImm11 w)

/-- Opcode 1101: the marker I[8] must be 1; with 0 the word is illegal (R67). -/
def decodeHiconst (w : Word) : Instr :=
  match w.extractLsb' 8 1 with
  | 0b1#1 => .hiconst (fieldD w) (fieldUimm8 w)
  | 0b0#1 => .illegal1101 w

/-- `decode(I)` of R70: the family by op = I[15:12] (R64), written here as bit 15 and bits 14:12. -/
def decode (w : Word) : Instr :=
  match w.extractLsb' 15 1, w.extractLsb' 12 3 with
  | 0b0#1, 0b000#3 => decodeBranch w
  | 0b0#1, 0b001#3 => decodeArith w
  | 0b0#1, 0b010#3 => decodeCompare w
  | 0b0#1, 0b011#3 => .illegal0011 w
  | 0b0#1, 0b100#3 => decodeJsr w
  | 0b0#1, 0b101#3 => decodeLogic w
  | 0b0#1, 0b110#3 => .ldr (fieldD w) (fieldS w) (fieldImm6 w)
  | 0b0#1, 0b111#3 => .str (fieldD w) (fieldS w) (fieldImm6 w)
  | 0b1#1, 0b000#3 => .rti
  | 0b1#1, 0b001#3 => .const (fieldD w) (fieldImm9 w)
  | 0b1#1, 0b010#3 => decodeShift w
  | 0b1#1, 0b011#3 => .illegal1011 w
  | 0b1#1, 0b100#3 => decodeJump w
  | 0b1#1, 0b101#3 => decodeHiconst w
  | 0b1#1, 0b110#3 => .illegal1110 w
  | 0b1#1, 0b111#3 => .trap (fieldUimm8 w)

/-- The instruction read from an opcode-table word: every row of the table has one 16-bit word (R60),
so the bits above `nbits`, up to bit 15, are 0. -/
def decodeTableWord (nbits w : Nat) : Option Instr :=
  if nbits ≤ 16 ∧ w < 65536 then some (decode (BitVec.ofNat 16 w)) else none

/-! ## The opcode table (spec/opcode_table.json) -/

/-- The rows (mask, match) of opcode_table.json, in its order. -/
def opcodeTable : List (Word × Word) :=
  [(0xFE00#16, 0x0000#16), (0xFE00#16, 0x0200#16), (0xFE00#16, 0x0400#16),
    (0xFE00#16, 0x0600#16), (0xFE00#16, 0x0800#16), (0xFE00#16, 0x0A00#16),
    (0xFE00#16, 0x0C00#16), (0xFE00#16, 0x0E00#16)] ++
  [(0xF038#16, 0x1000#16), (0xF038#16, 0x1008#16), (0xF038#16, 0x1010#16),
    (0xF038#16, 0x1018#16), (0xF020#16, 0x1020#16)] ++
  [(0xF180#16, 0x2000#16), (0xF180#16, 0x2080#16), (0xF180#16, 0x2100#16),
    (0xF180#16, 0x2180#16)] ++
  [(0xF800#16, 0x4000#16), (0xF800#16, 0x4800#16)] ++
  [(0xF038#16, 0x5000#16), (0xF038#16, 0x5008#16), (0xF038#16, 0x5010#16),
    (0xF038#16, 0x5018#16), (0xF020#16, 0x5020#16)] ++
  [(0xF000#16, 0x6000#16), (0xF000#16, 0x7000#16)] ++
  [(0xF000#16, 0x8000#16)] ++
  [(0xF000#16, 0x9000#16)] ++
  [(0xF030#16, 0xA000#16), (0xF030#16, 0xA010#16), (0xF030#16, 0xA020#16),
    (0xF030#16, 0xA030#16)] ++
  [(0xF800#16, 0xC000#16), (0xF800#16, 0xC800#16)] ++
  [(0xF100#16, 0xD100#16)] ++
  [(0xF000#16, 0xF000#16)] ++
  [(0xF000#16, 0x3000#16), (0xF000#16, 0xB000#16), (0xF000#16, 0xE000#16), (0xF100#16, 0xD000#16)]

/-- The row of an instruction: its place in `opcodeTable`. -/
def rowIndex (i : Instr) : Nat :=
  match i with
  | .nop _ => 0
  | .brp _ => 1
  | .brz _ => 2
  | .brzp _ => 3
  | .brn _ => 4
  | .brnp _ => 5
  | .brnz _ => 6
  | .brnzp _ => 7
  | .add _ _ _ => 8
  | .mul _ _ _ => 9
  | .sub _ _ _ => 10
  | .div _ _ _ => 11
  | .addi _ _ _ => 12
  | .cmp _ _ => 13
  | .cmpu _ _ => 14
  | .cmpi _ _ => 15
  | .cmpiu _ _ => 16
  | .jsrr _ => 17
  | .jsr _ => 18
  | .and _ _ _ => 19
  | .not _ _ => 20
  | .or _ _ _ => 21
  | .xor _ _ _ => 22
  | .andi _ _ _ => 23
  | .ldr _ _ _ => 24
  | .str _ _ _ => 25
  | .rti => 26
  | .const _ _ => 27
  | .sll _ _ _ => 28
  | .sra _ _ _ => 29
  | .srl _ _ _ => 30
  | .mod _ _ _ => 31
  | .jmpr _ => 32
  | .jmp _ => 33
  | .hiconst _ _ => 34
  | .trap _ => 35
  | .illegal0011 _ => 36
  | .illegal1011 _ => 37
  | .illegal1110 _ => 38
  | .illegal1101 _ => 39

/-- The row (mask, match) of an instruction. -/
def rowOf (i : Instr) : Word × Word := opcodeTable.getD (rowIndex i) (0x0000#16, 0xFFFF#16)

/-! ## The encoder -/

/-- F-BR of R62: 0000 nzp IMM9. -/
def encodeBr (nzp : BitVec 3) (imm9 : BitVec 9) : Word := 0b0000#4 ++ nzp ++ imm9

/-- F-RRR of R62: op ddd sss 0 sub ttt. -/
def encodeRRR (op : BitVec 4) (sub : BitVec 2) (d s t : Reg) : Word :=
  op ++ d ++ s ++ 0b0#1 ++ sub ++ t

/-- F-RRI5 of R62: op ddd sss 1 IMM5. -/
def encodeRRI5 (op : BitVec 4) (d s : Reg) (imm5 : BitVec 5) : Word :=
  op ++ d ++ s ++ 0b1#1 ++ imm5

/-- F-CMPR of R62: 0010 sss 0 sub xxxx ttt, the don't-care bits written 0 (log 8). -/
def encodeCmpR (sub : BitVec 1) (s t : Reg) : Word :=
  0b0010#4 ++ s ++ 0b0#1 ++ sub ++ 0b0000#4 ++ t

/-- F-CMPI of R62: 0010 sss 1 sub IMM7. -/
def encodeCmpI (sub : BitVec 1) (s : Reg) (imm7 : BitVec 7) : Word :=
  0b0010#4 ++ s ++ 0b1#1 ++ sub ++ imm7

/-- F-JR of R62: op 0 xx sss xxxxxx, the don't-care bits written 0 (log 8). -/
def encodeJR (op : BitVec 4) (s : Reg) : Word := op ++ 0b0#1 ++ 0b00#2 ++ s ++ 0b000000#6

/-- F-JI of R62: op 1 IMM11. -/
def encodeJI (op : BitVec 4) (imm11 : BitVec 11) : Word := op ++ 0b1#1 ++ imm11

/-- F-MEM of R62: op rrr sss IMM6. -/
def encodeMem (op : BitVec 4) (r s : Reg) (imm6 : BitVec 6) : Word := op ++ r ++ s ++ imm6

/-- F-SHIFT of R62: 1010 ddd sss sub UIMM4. -/
def encodeShift (sub : BitVec 2) (d s : Reg) (uimm4 : BitVec 4) : Word :=
  0b1010#4 ++ d ++ s ++ sub ++ uimm4

/-- The word of an instruction, by the formats of R62 and the selector values of R64 and R65. -/
def encode (i : Instr) : Word :=
  match i with
  | .nop imm9 => encodeBr 0b000#3 imm9
  | .brp imm9 => encodeBr 0b001#3 imm9
  | .brz imm9 => encodeBr 0b010#3 imm9
  | .brzp imm9 => encodeBr 0b011#3 imm9
  | .brn imm9 => encodeBr 0b100#3 imm9
  | .brnp imm9 => encodeBr 0b101#3 imm9
  | .brnz imm9 => encodeBr 0b110#3 imm9
  | .brnzp imm9 => encodeBr 0b111#3 imm9
  | .add d s t => encodeRRR 0b0001#4 0b00#2 d s t
  | .mul d s t => encodeRRR 0b0001#4 0b01#2 d s t
  | .sub d s t => encodeRRR 0b0001#4 0b10#2 d s t
  | .div d s t => encodeRRR 0b0001#4 0b11#2 d s t
  | .addi d s imm5 => encodeRRI5 0b0001#4 d s imm5
  | .cmp s t => encodeCmpR 0b0#1 s t
  | .cmpu s t => encodeCmpR 0b1#1 s t
  | .cmpi s imm7 => encodeCmpI 0b0#1 s imm7
  | .cmpiu s uimm7 => encodeCmpI 0b1#1 s uimm7
  | .jsrr s => encodeJR 0b0100#4 s
  | .jsr imm11 => encodeJI 0b0100#4 imm11
  | .and d s t => encodeRRR 0b0101#4 0b00#2 d s t
  | .not d s => encodeRRR 0b0101#4 0b01#2 d s 0b000#3
  | .or d s t => encodeRRR 0b0101#4 0b10#2 d s t
  | .xor d s t => encodeRRR 0b0101#4 0b11#2 d s t
  | .andi d s imm5 => encodeRRI5 0b0101#4 d s imm5
  | .ldr d s imm6 => encodeMem 0b0110#4 d s imm6
  | .str t s imm6 => encodeMem 0b0111#4 t s imm6
  | .rti => 0b1000#4 ++ 0b000000000000#12
  | .const d imm9 => 0b1001#4 ++ d ++ imm9
  | .sll d s uimm4 => encodeShift 0b00#2 d s uimm4
  | .sra d s uimm4 => encodeShift 0b01#2 d s uimm4
  | .srl d s uimm4 => encodeShift 0b10#2 d s uimm4
  | .mod d s t => 0b1010#4 ++ d ++ s ++ 0b11#2 ++ 0b0#1 ++ t
  | .jmpr s => encodeJR 0b1100#4 s
  | .jmp imm11 => encodeJI 0b1100#4 imm11
  | .hiconst d uimm8 => 0b1101#4 ++ d ++ 0b1#1 ++ uimm8
  | .trap uimm8 => 0b1111#4 ++ 0b0000#4 ++ uimm8
  | .illegal0011 w => w
  | .illegal1011 w => w
  | .illegal1110 w => w
  | .illegal1101 w => w

end Sys2Proof
end

