-- ==== Sys2Proof/Machine/Operands.lean ====
section
/-! DEFINITION. The integer readings of a word, the extensions of an immediate, and the operand forms
(00_scope.md R7, 30_encoding.md R63). -/

namespace Sys2Proof.Machine

/-- `u16(v)` (R7): the unsigned integer 0..65535. -/
def u16 (v : Word) : Int := (v.toNat : Int)

/-- `s16(v)` (R7): the two's-complement integer -32768..32767. -/
def s16 (v : Word) : Int := v.toInt

/-- `w16(n)` (R7): n mod 65536 as a word. -/
def w16 (n : Int) : Word := BitVec.ofInt 16 n

/-- `sext_16(f)` (R7). -/
def sext16 {n : Nat} (f : BitVec n) : Word := f.signExtend 16

/-- `zext_16(f)` (R7). -/
def zext16 {n : Nat} (f : BitVec n) : Word := f.setWidth 16

/-- The branch and jump target pc + 1 + offset, modulo 65536 (41_branch.md R120, R191). -/
def relativeTarget {n : Nat} (pc : Word) (imm : BitVec n) : Word :=
  w16 (u16 pc + 1 + s16 (sext16 imm))

/-- The address w16(pc + 1): the default next pc (40_execute_common.md R104), and the return address that
JSR, JSRR and TRAP save (10_state.md R22). -/
def following (pc : Word) : Word := w16 (u16 pc + 1)

/-- The JSR target (48_control_transfer.md R193; D11, log 14): bit 15 of pc, then the field shifted left
by 4. -/
def jsrTarget (pc : Word) (imm11 : BitVec 11) : Word :=
  (pc &&& 0x8000#16) ||| (zext16 imm11 <<< 4)

/-- The TRAP target 0x8000 | UIMM8 (R194; D12, log 15). -/
def trapTarget (uimm8 : BitVec 8) : Word := 0x8000#16 ||| zext16 uimm8

/-- The effective address of LDR and STR: base + IMM6, modulo 65536 (44_load_store.md R150). -/
def effectiveAddress (base : Word) (imm6 : BitVec 6) : Word := w16 (u16 base + u16 (sext16 imm6))

/-! ## The results of the ALU (42_arithmetic.md, 45_constant.md, 46_shift_mod.md, 47_logical.md) -/

/-- R130, R134: the sum modulo 65536. -/
def aluAdd (a b : Word) : Word := w16 (u16 a + u16 b)

/-- R131: the low 16 bits of the product. -/
def aluMul (a b : Word) : Word := w16 (u16 a * u16 b)

/-- R132: the difference modulo 65536. -/
def aluSub (a b : Word) : Word := w16 (u16 a - u16 b)

/-- R133 for a divisor that is not 0: the floor of the unsigned quotient (D8, log 12). -/
def aluDiv (a b : Word) : Word := w16 (u16 a / u16 b)

/-- R173 for a divisor that is not 0: a - b * floor(a / b), unsigned (D8, log 12). -/
def aluMod (a b : Word) : Word := w16 (u16 a - u16 b * (u16 a / u16 b))

/-- The result of DIV and MOD for a zero divisor under `DIV_BY_ZERO = ZeroResult` (R133, R173; D9,
log 5). -/
def zeroDivisorResult : Word := 0x0000#16

/-- R170: v * 2^u modulo 65536. -/
def aluSll (v : Word) (u : BitVec 4) : Word := w16 (u16 v * 2 ^ u.toNat)

/-- R171: the floor of s16(v) / 2^u, the sign copied into the vacated bits. -/
def aluSra (v : Word) (u : BitVec 4) : Word := w16 (s16 v / 2 ^ u.toNat)

/-- R172: the floor of u16(v) / 2^u, zeros shifted in. -/
def aluSrl (v : Word) (u : BitVec 4) : Word := w16 (u16 v / 2 ^ u.toNat)

/-- R161: UIMM8 replaces the upper byte, the lower byte is kept. -/
def aluHiconst (v : Word) (uimm8 : BitVec 8) : Word :=
  (v &&& 0x00FF#16) ||| (zext16 uimm8 <<< 8)

end Sys2Proof.Machine
end

