-- ==== Sys2Proof/Machine/Flags.lean ====
section
/-! DEFINITION. The condition-code unit (40_execute_common.md R106, R107) and the fields of the PSR
(10_state.md R26). -/

namespace Sys2Proof.Machine

/-- The 3-bit value {N, Z, P}: N = 0b100, Z = 0b010, P = 0b001 (R26). -/
abbrev Nzp := BitVec 3

/-- `cc(n)` (R106). -/
def cc (n : Int) : Nzp := if n < 0 then 0b100#3 else if n = 0 then 0b010#3 else 0b001#3

/-- `PSR.NZP` = PSR[2:0] (R26). -/
def nzpOf (psr : Word) : Nzp := psr.extractLsb' 0 3

/-- `PSR.PRIV` = PSR[15]: true is supervisor (R26, R27). -/
def privOf (psr : Word) : Bool := psr.getLsbD 15

/-- PSR[14:3], which is no field (R26, R29). -/
def reservedOf (psr : Word) : BitVec 12 := psr.extractLsb' 3 12

/-- `PSR[2:0] <- c`, PSR[15:3] unchanged (R107). -/
def withNzp (psr : Word) (c : Nzp) : Word := (psr &&& 0xFFF8#16) ||| c.setWidth 16

/-- `PSR.PRIV <- p`, PSR[14:0] unchanged (R194, R195). -/
def withPriv (psr : Word) (p : Bool) : Word :=
  if p then psr ||| 0x8000#16 else psr &&& 0x7FFF#16

/-- The difference CMP takes the flags from: s16(a) - s16(b), exact (43_compare.md R140, R142; D10,
log 13). -/
def signedDifference (a b : Word) : Int := s16 a - s16 b

/-- The difference CMPU takes the flags from: u16(a) - u16(b), exact (R141, R143; D10, log 13). -/
def unsignedDifference (a b : Word) : Int := u16 a - u16 b

end Sys2Proof.Machine
end

