-- ==== Sys2Proof/Config.lean ====
section
/-! DEFINITION. The parameters of the LC-4 core (00_scope.md R5): what an implementation fixes and the
source document does not give. Types only; the default values, and `MemMap.classify`, stand in
Machine/Parameters.lean. No free value is needed: the spec decides or parameterises every open point
(92_eei_decisions.md). -/

namespace Sys2Proof

/-- The four region classes of 20_memory.md R42. -/
inductive Region where
  | userCode
  | userData
  | osCode
  | osData
  deriving DecidableEq, Repr

/-- `MEMMAP` as plain data (log 2): the class of address 0, and the addresses at which the class
changes, each with the class from there on. Every total function of the address into the four classes
(R42) can be written so. -/
structure MemMap where
  /-- The class of address 0 and of every address below the first change. -/
  base : Region
  /-- (address, class): from that address on, the class is this one. Later entries win. -/
  changes : List (Word × Region)
  deriving DecidableEq, Repr

/-- `DIV_BY_ZERO` (R5, D9): the effect of DIV or MOD with a zero divisor. -/
inductive DivByZero where
  | zeroResult
  | fault
  deriving DecidableEq, Repr

/-- `JSRR_LINK_ORDER` (R5, D14): whether JSRR reads Rs before or after it writes R7. -/
inductive JsrrLinkOrder where
  | readBeforeLink
  | linkBeforeRead
  deriving DecidableEq, Repr

/-- The named parameters of 00_scope.md R5. -/
structure Params where
  /-- `MEMMAP`. -/
  memMap : MemMap
  /-- `RESET_PC`. -/
  resetPc : Word
  /-- `HALT_PC`, used by the host's run loop alone (70_reset_and_hazards.md R244). -/
  haltPc : Word
  /-- `DIV_BY_ZERO`. -/
  divByZero : DivByZero
  /-- `JSRR_LINK_ORDER`. -/
  jsrrLinkOrder : JsrrLinkOrder
  deriving DecidableEq, Repr

end Sys2Proof
end

