-- ==== Sys2Proof/Machine/Parameters.lean ====
section
/-! DEFINITION. The default values of the parameters of 00_scope.md R5, and the reading of `MEMMAP`.
Every number here is the spec's own choice (92_eei_decisions.md D1, D2, D3, D9, D14; logs 2 to 6),
none is the source document's. -/

namespace Sys2Proof.Machine

/-- UserCode or OSCode (R42). -/
def isCode (r : Region) : Bool :=
  match r with
  | .userCode => true
  | .osCode => true
  | .userData => false
  | .osData => false

/-- UserData or OSData (R42). -/
def isData (r : Region) : Bool :=
  match r with
  | .userData => true
  | .osData => true
  | .userCode => false
  | .osCode => false

/-- OSCode or OSData: an OS region (R10, R42). -/
def isOS (r : Region) : Bool :=
  match r with
  | .osCode => true
  | .osData => true
  | .userCode => false
  | .userData => false

/-- `MEMMAP(a)`: the one function that classifies an address (R42). The last change at or below `a` in
the list's order gives the class. -/
def classify (m : MemMap) (a : Word) : Region :=
  m.changes.foldl (fun r c => if c.1 ≤ a then c.2 else r) m.base

/-- The default `MEMMAP` (R42, D1): UserCode 0x0000-0x1FFF, UserData 0x2000-0x7FFF, OSCode
0x8000-0x9FFF, OSData 0xA000-0xFFFF. -/
def defaultMemMap : MemMap :=
  { base := .userCode
    changes := [(0x2000#16, .userData), (0x8000#16, .osCode), (0xA000#16, .osData)] }

/-- The defaults of R5. -/
def defaultParams : Params :=
  { memMap := defaultMemMap
    resetPc := 0x8200#16
    haltPc := 0x80FF#16
    divByZero := .zeroResult
    jsrrLinkOrder := .readBeforeLink }

end Sys2Proof.Machine
end

