-- ==== Sys2Proof/Machine/State.lean ====
section
/-! DEFINITION. The state of the LC-4 core (10_state.md R20), the two ways a step can stop, and the
state after reset (R34). -/

namespace Sys2Proof.Machine

/-- One word of memory at a word address. The addressable unit is the 16-bit word and there are no byte
addresses (20_memory.md R40, R47), so a cell holds a word (log 17). -/
abbrev Cell := Nat × Word

/-- Memory `M` (R31, R40): the words that are not 0x0000, addresses strictly rising. -/
abbrev Memory := List Cell

/-- The fault causes of 60_exceptions.md R200. -/
inductive FaultCause where
  | privilegeViolation
  | sectionTypeViolation
  | illegalInstruction
  | divideByZero
  deriving DecidableEq, Repr

/-- Where in the step a fault arose (R201). -/
inductive FaultKind where
  | fetch
  | load
  | store
  | decode
  | execute
  deriving DecidableEq, Repr

/-- The fault record `{cause, kind, pc, addr, insn}` of R201; `insn` is none for a fetch fault. -/
structure FaultRecord where
  cause : FaultCause
  kind : FaultKind
  pc : Word
  addr : Word
  insn : Option Word
  deriving DecidableEq, Repr

/-- The machine's state: the five components of R20, and the parameters of R5, which are no state of the
core and which no step changes (log 1). -/
structure State where
  /-- R0..R7 (R21). -/
  regs : Vector Word 8
  /-- The program counter (R24). -/
  pc : Word
  /-- The status register: bit 15 PRIV, bits 2, 1, 0 the flags N, Z, P (R26). -/
  psr : Word
  /-- Memory (R31). -/
  mem : Memory
  /-- The fault latch `FAULT` (R32). -/
  fault : Option FaultRecord
  /-- The parameters of R5: the model's own field (log 1). -/
  params : Params
  deriving DecidableEq, Repr

/-- Why a step stops the machine. -/
inductive Fault where
  /-- Raised by `step` alone, when `FAULT` is set: "the core has no step" (40_execute_common.md R111,
  60_exceptions.md R204). Safe: after it no claim about a later state can be proved (log 10). The step
  that SETS `FAULT` is no stop: it answers a next state. -/
  | stopped (record : FaultRecord)
  deriving DecidableEq, Repr

/-- Why a step refuses an instruction. -/
inductive Refusal where
  /-- Raised by an arm of `exec` for an instruction that has no meaning yet. No arm raises it: all 40
  constructors have their meaning. Safe. -/
  | notModelled (mnemonic : String)
  deriving DecidableEq, Repr

/-- The state after reset with the parameters `p` (R34, R230): every register 0x0000, `pc` = RESET_PC,
PSR = 0x8001, every memory word 0x0000, no fault. -/
def State.resetWith (p : Params) : State :=
  { regs := Vector.replicate 8 0x0000#16
    pc := p.resetPc
    psr := 0x8001#16
    mem := []
    fault := none
    params := p }

/-- The machine right after reset, with the default parameters (R34). -/
def State.reset : State := State.resetWith defaultParams

end Sys2Proof.Machine
end

