-- ==== Sys2Proof/Machine/Ops.lean ====
section
/-! DEFINITION. The named operations over memory and registers, the protection check, the writes an
instruction makes and how they take effect together, raising a fault, taking the trap and returning
from it. -/

namespace Sys2Proof.Machine

/-! ## Memory (20_memory.md R46) -/

/-- What a word that is not listed reads as: the reset contents 0x0000 (R34). -/
def unlistedWord : Word := 0x0000#16

/-- The word at address `a`. -/
def Memory.lookup (m : Memory) (a : Nat) : Word :=
  match m with
  | [] => unlistedWord
  | (b, v) :: rest => if b = a then v else Memory.lookup rest a

/-- Puts the word `v` at address `a`, in order; `unlistedWord` is not listed. -/
def Memory.store (m : Memory) (a : Nat) (v : Word) : Memory :=
  match m with
  | [] => if v = unlistedWord then [] else [(a, v)]
  | (b, x) :: rest =>
    if b < a then (b, x) :: Memory.store rest a v
    else
      let others := ((b, x) :: rest).filter (fun c => c.1 ≠ a)
      if v = unlistedWord then others else (a, v) :: others

/-- The canonical form: addresses strictly rising and below 65536, no entry that reads as an unlisted
word does. -/
abbrev Memory.wf (m : Memory) : Prop :=
  m.Pairwise (fun c d => c.1 < d.1) ∧ ∀ c ∈ m, c.1 < 65536 ∧ c.2 ≠ unlistedWord

/-- `MemRead(a, 1)` (R46). -/
def Memory.read (m : Memory) (a : Word) : Word := Memory.lookup m a.toNat

/-- `MemWrite(a, 1, v)` (R46). -/
def Memory.write (m : Memory) (a v : Word) : Memory := Memory.store m a.toNat v

/-! ## Registers (10_state.md R21) -/

/-- `x[r]` (R8). -/
def readReg (regs : Vector Word 8) (r : Reg) : Word := regs[r.toNat]'(r.isLt)

/-- `x[r] <- v` (R8). -/
def writeReg (regs : Vector Word 8) (r : Reg) (v : Word) : Vector Word 8 :=
  regs.set r.toNat v r.isLt

/-- The link register R7 (R22). -/
def linkReg : Reg := 7#3

/-- `x[r]` in a state. -/
def State.reg (σ : State) (r : Reg) : Word := readReg σ.regs r

/-- `MemRead(a, 1)` in a state (R46). -/
def State.word (σ : State) (a : Word) : Word := Memory.read σ.mem a

/-- The instruction word `I` being executed: M[pc], where pc is still the address of the instruction
(R8, 40_execute_common.md R101). -/
def State.insn (σ : State) : Word := σ.word σ.pc

/-- `w16(pc + 1)` in a state (R104). -/
def State.nextPc (σ : State) : Word := following σ.pc

/-- The state with the word `v` at pc: what the host's loader does before execution (R234). -/
def State.placeAtPc (σ : State) (v : Word) : State := { σ with mem := Memory.write σ.mem σ.pc v }

/-! ## The protection check (20_memory.md R45) -/

/-- The kinds of access that `Check` takes (R45). -/
inductive Access where
  | fetch
  | load
  | store
  deriving DecidableEq, Repr

/-- The fault kind of an access (60_exceptions.md R201). -/
def Access.faultKind (k : Access) : FaultKind :=
  match k with
  | .fetch => .fetch
  | .load => .load
  | .store => .store

/-- `Check(kind, a)` (R45): none when it returns, the cause when it raises. Privilege comes before
section type (D15, log 11). -/
def checkAccess (m : MemMap) (supervisor : Bool) (k : Access) (a : Word) : Option FaultCause :=
  let c := classify m a
  if !supervisor && isOS c then some .privilegeViolation
  else
    match k with
    | .fetch => if isCode c then none else some .sectionTypeViolation
    | .load => if isData c then none else some .sectionTypeViolation
    | .store => if isData c then none else some .sectionTypeViolation

/-- `Check(kind, a)` with the state's `MEMMAP` and PSR.PRIV. -/
def State.check (σ : State) (k : Access) (a : Word) : Option FaultCause :=
  checkAccess σ.params.memMap (privOf σ.psr) k a

/-! ## The writes of an instruction and how a step ends (40_execute_common.md R100) -/

/-- The one data access an instruction makes (R49), as the commit record shows it (R108). -/
inductive DataAccess where
  | load (addr val : Word)
  | store (addr val : Word)
  deriving DecidableEq, Repr

/-- All the writes of one instruction, which take effect together at the end of the step (R100, R103). -/
structure Writes where
  /-- The one register written, and its value. -/
  reg : Option (Reg × Word) := none
  /-- The value `setcc` writes to PSR[2:0]. -/
  nzp : Option Nzp := none
  /-- The value written to PSR.PRIV. -/
  priv : Option Bool := none
  /-- The data access; a store writes memory. -/
  data : Option DataAccess := none
  /-- The next pc, written by every instruction (R24). -/
  pc : Word
  deriving DecidableEq, Repr

/-- How an instruction ends: it commits its writes, or raises a fault (R100). -/
inductive Effect where
  | commits (w : Writes)
  | raises (r : FaultRecord)
  deriving DecidableEq, Repr

/-- The registers after the writes `w`. -/
def Writes.regsOf (w : Writes) (regs : Vector Word 8) : Vector Word 8 :=
  match w.reg with
  | some (r, v) => writeReg regs r v
  | none => regs

/-- The PSR after the writes `w`. -/
def Writes.psrOf (w : Writes) (psr : Word) : Word :=
  let flagged := match w.nzp with
    | some c => withNzp psr c
    | none => psr
  match w.priv with
  | some p => withPriv flagged p
  | none => flagged

/-- Memory after the writes `w`: a load changes nothing (R46). -/
def Writes.memOf (w : Writes) (m : Memory) : Memory :=
  match w.data with
  | some (.store a v) => Memory.write m a v
  | some (.load _ _) => m
  | none => m

/-- The state after a step that commits the writes `w` (R100). -/
def State.commit (σ : State) (w : Writes) : State :=
  { σ with
    regs := w.regsOf σ.regs
    psr := w.psrOf σ.psr
    mem := w.memOf σ.mem
    pc := w.pc }

/-- The state after a step that faults: it sets `FAULT` and nothing else (60_exceptions.md R202). -/
def State.latch (σ : State) (r : FaultRecord) : State := { σ with fault := some r }

/-- The outcome of an instruction's effect. A fault is a next state, with `FAULT` set (R202, log 10). -/
def conclude (σ : State) (e : Effect) : Host.Outcome State Fault Refusal :=
  match e with
  | .commits w => .next (σ.commit w)
  | .raises r => .next (σ.latch r)

/-! ## Raising a fault (60_exceptions.md R201) -/

/-- The record of a failed check of an access at address `a`: no instruction word for a fetch (R201). -/
def accessFault (σ : State) (cause : FaultCause) (k : Access) (a : Word) : FaultRecord :=
  { cause := cause
    kind := k.faultKind
    pc := σ.pc
    addr := a
    insn := match k with
      | .fetch => none
      | .load => some σ.insn
      | .store => some σ.insn }

/-- `IllegalInstruction(Decode, pc, I)` (30_encoding.md R67, R201). -/
def illegalFault (σ : State) (word : Word) : FaultRecord :=
  { cause := .illegalInstruction, kind := .decode, pc := σ.pc, addr := σ.pc, insn := some word }

/-- `DivideByZero(Execute, pc, I)` (42_arithmetic.md R133, 46_shift_mod.md R173, R201). -/
def divideFault (σ : State) : FaultRecord :=
  { cause := .divideByZero, kind := .execute, pc := σ.pc, addr := σ.pc, insn := some σ.insn }

/-! ## The shapes the instructions share -/

/-- `x[d] <- r; setcc(s16(r)); pc <- w16(pc + 1)`: the end of every instruction that writes a result. -/
def resultTo (σ : State) (d : Reg) (r : Word) : Effect :=
  .commits { reg := some (d, r), nzp := some (cc (s16 r)), pc := σ.nextPc }

/-- `setcc(n); pc <- w16(pc + 1)`: the compares (43_compare.md). -/
def flagsFrom (σ : State) (n : Int) : Effect :=
  .commits { nzp := some (cc n), pc := σ.nextPc }

/-- `pc <- target`: the branches and jumps. -/
def jumpTo (target : Word) : Effect := .commits { pc := target }

/-- BR (41_branch.md R120) with condition mask `m`: taken if the mask has a bit in common with NZP. -/
def branch (m : Nzp) (imm9 : BitVec 9) (σ : State) : Effect :=
  if m &&& nzpOf σ.psr ≠ 0b000#3 then jumpTo (relativeTarget σ.pc imm9) else jumpTo σ.nextPc

/-- `x[7] <- w16(pc + 1); setcc(s16(w16(pc + 1))); pc <- target`: the writes of JSR, JSRR and TRAP
(48_control_transfer.md R192, R193, R194). -/
def linkAndGo (σ : State) (target : Word) : Writes :=
  { reg := some (linkReg, σ.nextPc), nzp := some (cc (s16 σ.nextPc)), pc := target }

/-- DIV and MOD: `quotient` for a divisor that is not 0; for 0, what `DIV_BY_ZERO` says (R133, R173). -/
def divideInto (σ : State) (d : Reg) (divisor quotient : Word) : Effect :=
  if divisor = 0x0000#16 then
    match σ.params.divByZero with
    | .zeroResult => resultTo σ d zeroDivisorResult
    | .fault => .raises (divideFault σ)
  else resultTo σ d quotient

/-! ## The software trap (60_exceptions.md R207, R209) -/

/-- Taking the trap (R194, R207): R7 saves pc + 1, NZP comes from the saved value, PRIV becomes 1, and pc
goes to 0x8000 | UIMM8. No old PSR, mode or NZP is saved. -/
def takeTrap (σ : State) (uimm8 : BitVec 8) : Effect :=
  .commits { linkAndGo σ (trapTarget uimm8) with priv := some true }

/-- The return from the trap (R195, R209): pc from R7, PRIV becomes 0, in either mode (D26, log 16). -/
def returnFromTrap (σ : State) : Effect :=
  .commits { priv := some false, pc := σ.reg linkReg }

end Sys2Proof.Machine
end

