-- ==== Sys2Proof/Machine/Arithmetic.lean ====
section
/-! DEFINITION. The arithmetic family, opcode 0001 (42_arithmetic.md R130 to R134). Each instruction has its effect, and its meaning is that effect concluded. -/

namespace Sys2Proof.Machine

/-- R130: the sum modulo 65536. -/
def effAdd (d s t : Reg) (σ : State) : Effect :=
  resultTo σ d (aluAdd (σ.reg s) (σ.reg t))

/-- The meaning of ADD. -/
def execAdd (d s t : Reg) (σ : State) : Host.Outcome State Fault Refusal :=
  conclude σ (effAdd d s t σ)

/-- R131: the low 16 bits of the product. -/
def effMul (d s t : Reg) (σ : State) : Effect :=
  resultTo σ d (aluMul (σ.reg s) (σ.reg t))

/-- The meaning of MUL. -/
def execMul (d s t : Reg) (σ : State) : Host.Outcome State Fault Refusal :=
  conclude σ (effMul d s t σ)

/-- R132: the difference modulo 65536. -/
def effSub (d s t : Reg) (σ : State) : Effect :=
  resultTo σ d (aluSub (σ.reg s) (σ.reg t))

/-- The meaning of SUB. -/
def execSub (d s t : Reg) (σ : State) : Host.Outcome State Fault Refusal :=
  conclude σ (effSub d s t σ)

/-- R133: the unsigned quotient; a zero divisor by `DIV_BY_ZERO`. -/
def effDiv (d s t : Reg) (σ : State) : Effect :=
  divideInto σ d (σ.reg t) (aluDiv (σ.reg s) (σ.reg t))

/-- The meaning of DIV. -/
def execDiv (d s t : Reg) (σ : State) : Host.Outcome State Fault Refusal :=
  conclude σ (effDiv d s t σ)

/-- R134: the sum with the signed IMM5. -/
def effAddi (d s : Reg) (imm5 : BitVec 5) (σ : State) : Effect :=
  resultTo σ d (aluAdd (σ.reg s) (sext16 imm5))

/-- The meaning of ADDI. -/
def execAddi (d s : Reg) (imm5 : BitVec 5) (σ : State) : Host.Outcome State Fault Refusal :=
  conclude σ (effAddi d s imm5 σ)

end Sys2Proof.Machine
end

