-- ==== Sys2Proof/Machine/Branch.lean ====
section
/-! DEFINITION. The branch family, opcode 0000 (41_branch.md R120 to R128). Each instruction has its effect, and its meaning is that effect concluded. -/

namespace Sys2Proof.Machine

/-- R121: mask 000, the empty mask, so it only advances pc. -/
def effNop (imm9 : BitVec 9) (σ : State) : Effect :=
  branch 0b000#3 imm9 σ

/-- The meaning of NOP. -/
def execNop (imm9 : BitVec 9) (σ : State) : Host.Outcome State Fault Refusal :=
  conclude σ (effNop imm9 σ)

/-- R122: mask 001, branches when P = 1. -/
def effBrp (imm9 : BitVec 9) (σ : State) : Effect :=
  branch 0b001#3 imm9 σ

/-- The meaning of BRp. -/
def execBrp (imm9 : BitVec 9) (σ : State) : Host.Outcome State Fault Refusal :=
  conclude σ (effBrp imm9 σ)

/-- R123: mask 010, branches when Z = 1. -/
def effBrz (imm9 : BitVec 9) (σ : State) : Effect :=
  branch 0b010#3 imm9 σ

/-- The meaning of BRz. -/
def execBrz (imm9 : BitVec 9) (σ : State) : Host.Outcome State Fault Refusal :=
  conclude σ (effBrz imm9 σ)

/-- R124: mask 011, branches when Z = 1 or P = 1. -/
def effBrzp (imm9 : BitVec 9) (σ : State) : Effect :=
  branch 0b011#3 imm9 σ

/-- The meaning of BRzp. -/
def execBrzp (imm9 : BitVec 9) (σ : State) : Host.Outcome State Fault Refusal :=
  conclude σ (effBrzp imm9 σ)

/-- R125: mask 100, branches when N = 1. -/
def effBrn (imm9 : BitVec 9) (σ : State) : Effect :=
  branch 0b100#3 imm9 σ

/-- The meaning of BRn. -/
def execBrn (imm9 : BitVec 9) (σ : State) : Host.Outcome State Fault Refusal :=
  conclude σ (effBrn imm9 σ)

/-- R126: mask 101, branches when N = 1 or P = 1. -/
def effBrnp (imm9 : BitVec 9) (σ : State) : Effect :=
  branch 0b101#3 imm9 σ

/-- The meaning of BRnp. -/
def execBrnp (imm9 : BitVec 9) (σ : State) : Host.Outcome State Fault Refusal :=
  conclude σ (effBrnp imm9 σ)

/-- R127: mask 110, branches when N = 1 or Z = 1. -/
def effBrnz (imm9 : BitVec 9) (σ : State) : Effect :=
  branch 0b110#3 imm9 σ

/-- The meaning of BRnz. -/
def execBrnz (imm9 : BitVec 9) (σ : State) : Host.Outcome State Fault Refusal :=
  conclude σ (effBrnz imm9 σ)

/-- R128: mask 111, branches when any of N, Z, P is 1. -/
def effBrnzp (imm9 : BitVec 9) (σ : State) : Effect :=
  branch 0b111#3 imm9 σ

/-- The meaning of BRnzp. -/
def execBrnzp (imm9 : BitVec 9) (σ : State) : Host.Outcome State Fault Refusal :=
  conclude σ (effBrnzp imm9 σ)

end Sys2Proof.Machine
end

