-- ==== Sys2Proof/Machine/Compare.lean ====
section
/-! DEFINITION. The compare family, opcode 0010 (43_compare.md R140 to R143). Each instruction has its effect, and its meaning is that effect concluded. -/

namespace Sys2Proof.Machine

/-- R140: flags from s16(x[s']) - s16(x[t]), exact. -/
def effCmp (s t : Reg) (σ : State) : Effect :=
  flagsFrom σ (signedDifference (σ.reg s) (σ.reg t))

/-- The meaning of CMP. -/
def execCmp (s t : Reg) (σ : State) : Host.Outcome State Fault Refusal :=
  conclude σ (effCmp s t σ)

/-- R141: flags from u16(x[s']) - u16(x[t]), exact. -/
def effCmpu (s t : Reg) (σ : State) : Effect :=
  flagsFrom σ (unsignedDifference (σ.reg s) (σ.reg t))

/-- The meaning of CMPU. -/
def execCmpu (s t : Reg) (σ : State) : Host.Outcome State Fault Refusal :=
  conclude σ (effCmpu s t σ)

/-- R142: flags from s16(x[s']) - s16(sext_16(IMM7)), exact. -/
def effCmpi (s : Reg) (imm7 : BitVec 7) (σ : State) : Effect :=
  flagsFrom σ (signedDifference (σ.reg s) (sext16 imm7))

/-- The meaning of CMPI. -/
def execCmpi (s : Reg) (imm7 : BitVec 7) (σ : State) : Host.Outcome State Fault Refusal :=
  conclude σ (effCmpi s imm7 σ)

/-- R143: flags from u16(x[s']) - u16(zext_16(UIMM7)), exact. -/
def effCmpiu (s : Reg) (uimm7 : BitVec 7) (σ : State) : Effect :=
  flagsFrom σ (unsignedDifference (σ.reg s) (zext16 uimm7))

/-- The meaning of CMPIU. -/
def execCmpiu (s : Reg) (uimm7 : BitVec 7) (σ : State) : Host.Outcome State Fault Refusal :=
  conclude σ (effCmpiu s uimm7 σ)

end Sys2Proof.Machine
end

