-- ==== Sys2Proof/Machine/Constant.lean ====
section
/-! DEFINITION. Constant loads, opcodes 1001 and 1101 (45_constant.md R160, R161). Each instruction has its effect, and its meaning is that effect concluded. -/

namespace Sys2Proof.Machine

/-- R160: the signed IMM9. -/
def effConst (d : Reg) (imm9 : BitVec 9) (σ : State) : Effect :=
  resultTo σ d (sext16 imm9)

/-- The meaning of CONST. -/
def execConst (d : Reg) (imm9 : BitVec 9) (σ : State) : Host.Outcome State Fault Refusal :=
  conclude σ (effConst d imm9 σ)

/-- R161: UIMM8 replaces the upper byte of x[d]. -/
def effHiconst (d : Reg) (uimm8 : BitVec 8) (σ : State) : Effect :=
  resultTo σ d (aluHiconst (σ.reg d) uimm8)

/-- The meaning of HICONST. -/
def execHiconst (d : Reg) (uimm8 : BitVec 8) (σ : State) : Host.Outcome State Fault Refusal :=
  conclude σ (effHiconst d uimm8 σ)

end Sys2Proof.Machine
end

