-- ==== Sys2Proof/Machine/Control.lean ====
section
/-! DEFINITION. Jumps, subroutine calls, trap and return, opcodes 1100, 0100, 1111, 1000
(48_control_transfer.md R190 to R195). Each instruction has its effect, and its meaning is that effect concluded. -/

namespace Sys2Proof.Machine

/-- R190: pc <- x[s]. -/
def effJmpr (s : Reg) (σ : State) : Effect :=
  jumpTo (σ.reg s)

/-- The meaning of JMPR. -/
def execJmpr (s : Reg) (σ : State) : Host.Outcome State Fault Refusal :=
  conclude σ (effJmpr s σ)

/-- R191: pc <- pc + 1 + IMM11, modulo 65536. -/
def effJmp (imm11 : BitVec 11) (σ : State) : Effect :=
  jumpTo (relativeTarget σ.pc imm11)

/-- The meaning of JMP. -/
def execJmp (imm11 : BitVec 11) (σ : State) : Host.Outcome State Fault Refusal :=
  conclude σ (effJmp imm11 σ)

/-- R192: x[7] <- pc + 1 with its flags, pc <- x[s], read before or after x[7] is written as
`JSRR_LINK_ORDER` says (D14, log 6). -/
def effJsrr (s : Reg) (σ : State) : Effect :=
  match σ.params.jsrrLinkOrder with
  | .readBeforeLink => .commits (linkAndGo σ (σ.reg s))
  | .linkBeforeRead =>
    .commits (linkAndGo σ (readReg (writeReg σ.regs linkReg σ.nextPc) s))

/-- The meaning of JSRR. -/
def execJsrr (s : Reg) (σ : State) : Host.Outcome State Fault Refusal :=
  conclude σ (effJsrr s σ)

/-- R193: x[7] <- pc + 1 with its flags, pc <- (pc & 0x8000) | (IMM11 << 4). -/
def effJsr (imm11 : BitVec 11) (σ : State) : Effect :=
  .commits (linkAndGo σ (jsrTarget σ.pc imm11))

/-- The meaning of JSR. -/
def execJsr (imm11 : BitVec 11) (σ : State) : Host.Outcome State Fault Refusal :=
  conclude σ (effJsr imm11 σ)

/-- R194: the software trap is taken. -/
def effTrap (uimm8 : BitVec 8) (σ : State) : Effect :=
  takeTrap σ uimm8

/-- The meaning of TRAP. -/
def execTrap (uimm8 : BitVec 8) (σ : State) : Host.Outcome State Fault Refusal :=
  conclude σ (effTrap uimm8 σ)

/-- R195: the return from the trap; it is not privileged. -/
def effRti (σ : State) : Effect :=
  returnFromTrap σ

/-- The meaning of RTI. -/
def execRti (σ : State) : Host.Outcome State Fault Refusal :=
  conclude σ (effRti σ)

end Sys2Proof.Machine
end

