-- ==== Sys2Proof/Machine/Illegal.lean ====
section
/-! DEFINITION. The illegal words (30_encoding.md R67, 60_exceptions.md R200 cause 3; D4, D5, log 9). Each instruction has its effect, and its meaning is that effect concluded. -/

namespace Sys2Proof.Machine

/-- R67, opcode 0011: IllegalInstruction is raised. -/
def effIllegal0011 (word : Word) (σ : State) : Effect :=
  .raises (illegalFault σ word)

/-- The meaning of ILLEGAL0011. -/
def execIllegal0011 (word : Word) (σ : State) : Host.Outcome State Fault Refusal :=
  conclude σ (effIllegal0011 word σ)

/-- R67, opcode 1011: IllegalInstruction is raised. -/
def effIllegal1011 (word : Word) (σ : State) : Effect :=
  .raises (illegalFault σ word)

/-- The meaning of ILLEGAL1011. -/
def execIllegal1011 (word : Word) (σ : State) : Host.Outcome State Fault Refusal :=
  conclude σ (effIllegal1011 word σ)

/-- R67, opcode 1110: IllegalInstruction is raised. -/
def effIllegal1110 (word : Word) (σ : State) : Effect :=
  .raises (illegalFault σ word)

/-- The meaning of ILLEGAL1110. -/
def execIllegal1110 (word : Word) (σ : State) : Host.Outcome State Fault Refusal :=
  conclude σ (effIllegal1110 word σ)

/-- R67, opcode 1101 with I[8] = 0: IllegalInstruction is raised. -/
def effIllegal1101 (word : Word) (σ : State) : Effect :=
  .raises (illegalFault σ word)

/-- The meaning of ILLEGAL1101. -/
def execIllegal1101 (word : Word) (σ : State) : Host.Outcome State Fault Refusal :=
  conclude σ (effIllegal1101 word σ)

end Sys2Proof.Machine
end

