-- ==== Sys2Proof/Machine/LoadStore.lean ====
section
/-! DEFINITION. Load and store, opcodes 0110 and 0111 (44_load_store.md R150 to R152). Each instruction has its effect, and its meaning is that effect concluded. -/

namespace Sys2Proof.Machine

/-- R151: the word at ea goes to x[d] and the flags, if `Check(Load, ea)` returns. -/
def effLdr (d s : Reg) (imm6 : BitVec 6) (σ : State) : Effect :=
  let ea := effectiveAddress (σ.reg s) imm6
  match σ.check .load ea with
  | some cause => .raises (accessFault σ cause .load ea)
  | none =>
    let v := σ.word ea
    .commits
      { reg := some (d, v)
        nzp := some (cc (s16 v))
        data := some (.load ea v)
        pc := σ.nextPc }

/-- The meaning of LDR. -/
def execLdr (d s : Reg) (imm6 : BitVec 6) (σ : State) : Host.Outcome State Fault Refusal :=
  conclude σ (effLdr d s imm6 σ)

/-- R152: x[t] goes to the word at ea, if `Check(Store, ea)` returns; no register and no flag changes. -/
def effStr (t s : Reg) (imm6 : BitVec 6) (σ : State) : Effect :=
  let ea := effectiveAddress (σ.reg s) imm6
  match σ.check .store ea with
  | some cause => .raises (accessFault σ cause .store ea)
  | none => .commits { data := some (.store ea (σ.reg t)), pc := σ.nextPc }

/-- The meaning of STR. -/
def execStr (t s : Reg) (imm6 : BitVec 6) (σ : State) : Host.Outcome State Fault Refusal :=
  conclude σ (effStr t s imm6 σ)

end Sys2Proof.Machine
end

