-- ==== Sys2Proof/Machine/Logical.lean ====
section
/-! DEFINITION. The logical family, opcode 0101 (47_logical.md R180 to R184). Each instruction has its effect, and its meaning is that effect concluded. -/

namespace Sys2Proof.Machine

/-- R180: bitwise AND. -/
def effAnd (d s t : Reg) (σ : State) : Effect :=
  resultTo σ d (σ.reg s &&& σ.reg t)

/-- The meaning of AND. -/
def execAnd (d s t : Reg) (σ : State) : Host.Outcome State Fault Refusal :=
  conclude σ (effAnd d s t σ)

/-- R181: one's complement. -/
def effNot (d s : Reg) (σ : State) : Effect :=
  resultTo σ d (~~~ (σ.reg s))

/-- The meaning of NOT. -/
def execNot (d s : Reg) (σ : State) : Host.Outcome State Fault Refusal :=
  conclude σ (effNot d s σ)

/-- R182: bitwise OR. -/
def effOr (d s t : Reg) (σ : State) : Effect :=
  resultTo σ d (σ.reg s ||| σ.reg t)

/-- The meaning of OR. -/
def execOr (d s t : Reg) (σ : State) : Host.Outcome State Fault Refusal :=
  conclude σ (effOr d s t σ)

/-- R183: bitwise exclusive OR. -/
def effXor (d s t : Reg) (σ : State) : Effect :=
  resultTo σ d (σ.reg s ^^^ σ.reg t)

/-- The meaning of XOR. -/
def execXor (d s t : Reg) (σ : State) : Host.Outcome State Fault Refusal :=
  conclude σ (effXor d s t σ)

/-- R184: bitwise AND with the signed IMM5. -/
def effAndi (d s : Reg) (imm5 : BitVec 5) (σ : State) : Effect :=
  resultTo σ d (σ.reg s &&& sext16 imm5)

/-- The meaning of ANDI. -/
def execAndi (d s : Reg) (imm5 : BitVec 5) (σ : State) : Host.Outcome State Fault Refusal :=
  conclude σ (effAndi d s imm5 σ)

end Sys2Proof.Machine
end

