-- ==== Sys2Proof/Machine/ShiftMod.lean ====
section
/-! DEFINITION. The shift and modulo family, opcode 1010 (46_shift_mod.md R170 to R173). Each instruction has its effect, and its meaning is that effect concluded. -/

namespace Sys2Proof.Machine

/-- R170: logical left shift. -/
def effSll (d s : Reg) (uimm4 : BitVec 4) (σ : State) : Effect :=
  resultTo σ d (aluSll (σ.reg s) uimm4)

/-- The meaning of SLL. -/
def execSll (d s : Reg) (uimm4 : BitVec 4) (σ : State) : Host.Outcome State Fault Refusal :=
  conclude σ (effSll d s uimm4 σ)

/-- R171: arithmetic right shift. -/
def effSra (d s : Reg) (uimm4 : BitVec 4) (σ : State) : Effect :=
  resultTo σ d (aluSra (σ.reg s) uimm4)

/-- The meaning of SRA. -/
def execSra (d s : Reg) (uimm4 : BitVec 4) (σ : State) : Host.Outcome State Fault Refusal :=
  conclude σ (effSra d s uimm4 σ)

/-- R172: logical right shift. -/
def effSrl (d s : Reg) (uimm4 : BitVec 4) (σ : State) : Effect :=
  resultTo σ d (aluSrl (σ.reg s) uimm4)

/-- The meaning of SRL. -/
def execSrl (d s : Reg) (uimm4 : BitVec 4) (σ : State) : Host.Outcome State Fault Refusal :=
  conclude σ (effSrl d s uimm4 σ)

/-- R173: the unsigned remainder; a zero divisor by `DIV_BY_ZERO`. -/
def effMod (d s t : Reg) (σ : State) : Effect :=
  divideInto σ d (σ.reg t) (aluMod (σ.reg s) (σ.reg t))

/-- The meaning of MOD. -/
def execMod (d s t : Reg) (σ : State) : Host.Outcome State Fault Refusal :=
  conclude σ (effMod d s t σ)

end Sys2Proof.Machine
end

