-- ==== Sys2Proof/Machine/Dispatch.lean ====
section
/-! DEFINITION. Dispatch: exactly one meaning a constructor (40_execute_common.md R102). -/

namespace Sys2Proof.Machine

def exec (i : Instr) (s : State) : Host.Outcome State Fault Refusal :=
  match i with
  | .nop imm9 => Sys2Proof.Machine.execNop imm9 s
  | .brp imm9 => Sys2Proof.Machine.execBrp imm9 s
  | .brz imm9 => Sys2Proof.Machine.execBrz imm9 s
  | .brzp imm9 => Sys2Proof.Machine.execBrzp imm9 s
  | .brn imm9 => Sys2Proof.Machine.execBrn imm9 s
  | .brnp imm9 => Sys2Proof.Machine.execBrnp imm9 s
  | .brnz imm9 => Sys2Proof.Machine.execBrnz imm9 s
  | .brnzp imm9 => Sys2Proof.Machine.execBrnzp imm9 s
  | .add rd rs rt => Sys2Proof.Machine.execAdd rd rs rt s
  | .mul rd rs rt => Sys2Proof.Machine.execMul rd rs rt s
  | .sub rd rs rt => Sys2Proof.Machine.execSub rd rs rt s
  | .div rd rs rt => Sys2Proof.Machine.execDiv rd rs rt s
  | .addi rd rs imm5 => Sys2Proof.Machine.execAddi rd rs imm5 s
  | .cmp rs rt => Sys2Proof.Machine.execCmp rs rt s
  | .cmpu rs rt => Sys2Proof.Machine.execCmpu rs rt s
  | .cmpi rs imm7 => Sys2Proof.Machine.execCmpi rs imm7 s
  | .cmpiu rs uimm7 => Sys2Proof.Machine.execCmpiu rs uimm7 s
  | .jsrr rs => Sys2Proof.Machine.execJsrr rs s
  | .jsr imm11 => Sys2Proof.Machine.execJsr imm11 s
  | .and rd rs rt => Sys2Proof.Machine.execAnd rd rs rt s
  | .not rd rs => Sys2Proof.Machine.execNot rd rs s
  | .or rd rs rt => Sys2Proof.Machine.execOr rd rs rt s
  | .xor rd rs rt => Sys2Proof.Machine.execXor rd rs rt s
  | .andi rd rs imm5 => Sys2Proof.Machine.execAndi rd rs imm5 s
  | .ldr rd rs imm6 => Sys2Proof.Machine.execLdr rd rs imm6 s
  | .str rt rs imm6 => Sys2Proof.Machine.execStr rt rs imm6 s
  | .rti => Sys2Proof.Machine.execRti s
  | .const rd imm9 => Sys2Proof.Machine.execConst rd imm9 s
  | .sll rd rs uimm4 => Sys2Proof.Machine.execSll rd rs uimm4 s
  | .sra rd rs uimm4 => Sys2Proof.Machine.execSra rd rs uimm4 s
  | .srl rd rs uimm4 => Sys2Proof.Machine.execSrl rd rs uimm4 s
  | .mod rd rs rt => Sys2Proof.Machine.execMod rd rs rt s
  | .jmpr rs => Sys2Proof.Machine.execJmpr rs s
  | .jmp imm11 => Sys2Proof.Machine.execJmp imm11 s
  | .hiconst rd uimm8 => Sys2Proof.Machine.execHiconst rd uimm8 s
  | .trap uimm8 => Sys2Proof.Machine.execTrap uimm8 s
  | .illegal0011 word => Sys2Proof.Machine.execIllegal0011 word s
  | .illegal1011 word => Sys2Proof.Machine.execIllegal1011 word s
  | .illegal1110 word => Sys2Proof.Machine.execIllegal1110 word s
  | .illegal1101 word => Sys2Proof.Machine.execIllegal1101 word s

end Sys2Proof.Machine
end

