-- ==== Sys2Proof/Machine/Step.lean ====
section
/-! DEFINITION. One step of the core (40_execute_common.md R100). -/

namespace Sys2Proof.Machine

/-- `Step()` of R100: no step while `FAULT` is set (R111); the fetch check (R101); then the decoded
instruction. A failed fetch check is a next state with `FAULT` set (R202). -/
def step (σ : State) : Host.Outcome State Fault Refusal :=
  match σ.fault with
  | some r => .fault (.stopped r)
  | none =>
    match σ.check .fetch σ.pc with
    | some cause => .next (σ.latch (accessFault σ cause .fetch σ.pc))
    | none => exec (decode σ.insn) σ

/-- `s` with an instruction word placed at pc, as the host's loader would place it before execution
(70_reset_and_hazards.md R234; log 21). -/
def State.withFetchWord (s : State) (nbits w : Nat) : State :=
  s.placeAtPc (BitVec.ofNat 16 (w % 2 ^ min nbits 16))

end Sys2Proof.Machine
end

