-- ==== Sys2Proof/Machine/Assembler.lean ====
section
/-! DEFINITION. The spec's own notation for instructions: the assembler syntax, label operands and
pseudo-instructions (30_encoding.md R71, R72; D22, log 28). No step depends on it. -/

namespace Sys2Proof.Machine

/-- A register in the notation. -/
def regText (r : Reg) : String := "R" ++ toString r.toNat

/-- A signed immediate: `#` and a decimal number. -/
def signedText {n : Nat} (imm : BitVec n) : String := "#" ++ toString imm.toInt

/-- An unsigned immediate. -/
def unsignedText {n : Nat} (imm : BitVec n) : String := "#" ++ toString imm.toNat

/-- `OP Rd, Rs, Rt`. -/
def threeRegs (op : String) (d s t : Reg) : String :=
  op ++ " " ++ regText d ++ ", " ++ regText s ++ ", " ++ regText t

/-- `OP Ra, Rb`. -/
def twoRegs (op : String) (a b : Reg) : String := op ++ " " ++ regText a ++ ", " ++ regText b

/-- `OP Rd, Rs, #imm`, the immediate already written. -/
def twoRegsImm (op : String) (d s : Reg) (imm : String) : String :=
  op ++ " " ++ regText d ++ ", " ++ regText s ++ ", " ++ imm

/-- `OP Rd, #imm`. -/
def oneRegImm (op : String) (d : Reg) (imm : String) : String :=
  op ++ " " ++ regText d ++ ", " ++ imm

/-- The notation of an instruction (R71), with a number where the source has a label; none for an illegal
word, which has no notation. -/
def assembly (i : Instr) : Option String :=
  match i with
  | .nop _ => some "NOP"
  | .brp imm9 => some ("BRp " ++ signedText imm9)
  | .brz imm9 => some ("BRz " ++ signedText imm9)
  | .brzp imm9 => some ("BRzp " ++ signedText imm9)
  | .brn imm9 => some ("BRn " ++ signedText imm9)
  | .brnp imm9 => some ("BRnp " ++ signedText imm9)
  | .brnz imm9 => some ("BRnz " ++ signedText imm9)
  | .brnzp imm9 => some ("BRnzp " ++ signedText imm9)
  | .add d s t => some (threeRegs "ADD" d s t)
  | .mul d s t => some (threeRegs "MUL" d s t)
  | .sub d s t => some (threeRegs "SUB" d s t)
  | .div d s t => some (threeRegs "DIV" d s t)
  | .addi d s imm5 => some (twoRegsImm "ADD" d s (signedText imm5))
  | .cmp s t => some (twoRegs "CMP" s t)
  | .cmpu s t => some (twoRegs "CMPU" s t)
  | .cmpi s imm7 => some (oneRegImm "CMPI" s (signedText imm7))
  | .cmpiu s uimm7 => some (oneRegImm "CMPIU" s (unsignedText uimm7))
  | .jsrr s => some ("JSRR " ++ regText s)
  | .jsr imm11 => some ("JSR " ++ unsignedText imm11)
  | .and d s t => some (threeRegs "AND" d s t)
  | .not d s => some (twoRegs "NOT" d s)
  | .or d s t => some (threeRegs "OR" d s t)
  | .xor d s t => some (threeRegs "XOR" d s t)
  | .andi d s imm5 => some (twoRegsImm "AND" d s (signedText imm5))
  | .ldr d s imm6 => some (twoRegsImm "LDR" d s (signedText imm6))
  | .str t s imm6 => some (twoRegsImm "STR" t s (signedText imm6))
  | .rti => some "RTI"
  | .const d imm9 => some (oneRegImm "CONST" d (signedText imm9))
  | .sll d s uimm4 => some (twoRegsImm "SLL" d s (unsignedText uimm4))
  | .sra d s uimm4 => some (twoRegsImm "SRA" d s (unsignedText uimm4))
  | .srl d s uimm4 => some (twoRegsImm "SRL" d s (unsignedText uimm4))
  | .mod d s t => some (threeRegs "MOD" d s t)
  | .jmpr s => some ("JMPR " ++ regText s)
  | .jmp imm11 => some ("JMP " ++ signedText imm11)
  | .hiconst d uimm8 => some (oneRegImm "HICONST" d (unsignedText uimm8))
  | .trap uimm8 => some ("TRAP " ++ unsignedText uimm8)
  | .illegal0011 _ => none
  | .illegal1011 _ => none
  | .illegal1110 _ => none
  | .illegal1101 _ => none

/-- The field of a BR or JMP at `pc` to the label `l`: `L - (pc + 1)` (R71); none where it does not fit. -/
def labelOffset (n : Nat) (pc l : Word) : Option (BitVec n) :=
  let offset := aluSub l (following pc)
  if sext16 (offset.setWidth n) = offset then some (offset.setWidth n) else none

/-- The field of a JSR to the label `l`: `L[14:4]`, where L is a multiple of 16 (R71). -/
def subroutineField (l : Word) : Option (BitVec 11) :=
  if l.extractLsb' 0 4 = 0#4 then some (l.extractLsb' 4 11) else none

/-- `RET` (R72). -/
def ret : Instr := .jmpr 7#3

/-- `LC Rd, V`, and `LEA Rd, L` with V the address of L (R72). -/
def loadConstant (d : Reg) (v : Word) : List Instr :=
  [.const d ((v.extractLsb' 0 8).setWidth 9), .hiconst d (v.extractLsb' 8 8)]

end Sys2Proof.Machine
end

