-- ==== Sys2Proof/Machine/Commit.lean ====
section
/-! DEFINITION. What a step outputs to the host: the commit record (40_execute_common.md R108, R109), the
status code (60_exceptions.md R200) and the port activity (R110). Outputs are no state (10_state.md
R20). -/

namespace Sys2Proof.Machine

/-- The effect of an instruction, of which `exec` is the conclusion: the control signals of R112. -/
def effect (i : Instr) (σ : State) : Effect :=
  match i with
  | .nop imm9 => effNop imm9 σ
  | .brp imm9 => effBrp imm9 σ
  | .brz imm9 => effBrz imm9 σ
  | .brzp imm9 => effBrzp imm9 σ
  | .brn imm9 => effBrn imm9 σ
  | .brnp imm9 => effBrnp imm9 σ
  | .brnz imm9 => effBrnz imm9 σ
  | .brnzp imm9 => effBrnzp imm9 σ
  | .add rd rs rt => effAdd rd rs rt σ
  | .mul rd rs rt => effMul rd rs rt σ
  | .sub rd rs rt => effSub rd rs rt σ
  | .div rd rs rt => effDiv rd rs rt σ
  | .addi rd rs imm5 => effAddi rd rs imm5 σ
  | .cmp rs rt => effCmp rs rt σ
  | .cmpu rs rt => effCmpu rs rt σ
  | .cmpi rs imm7 => effCmpi rs imm7 σ
  | .cmpiu rs uimm7 => effCmpiu rs uimm7 σ
  | .jsrr rs => effJsrr rs σ
  | .jsr imm11 => effJsr imm11 σ
  | .and rd rs rt => effAnd rd rs rt σ
  | .not rd rs => effNot rd rs σ
  | .or rd rs rt => effOr rd rs rt σ
  | .xor rd rs rt => effXor rd rs rt σ
  | .andi rd rs imm5 => effAndi rd rs imm5 σ
  | .ldr rd rs imm6 => effLdr rd rs imm6 σ
  | .str rt rs imm6 => effStr rt rs imm6 σ
  | .rti => effRti σ
  | .const rd imm9 => effConst rd imm9 σ
  | .sll rd rs uimm4 => effSll rd rs uimm4 σ
  | .sra rd rs uimm4 => effSra rd rs uimm4 σ
  | .srl rd rs uimm4 => effSrl rd rs uimm4 σ
  | .mod rd rs rt => effMod rd rs rt σ
  | .jmpr rs => effJmpr rs σ
  | .jmp imm11 => effJmp imm11 σ
  | .hiconst rd uimm8 => effHiconst rd uimm8 σ
  | .trap uimm8 => effTrap uimm8 σ
  | .illegal0011 word => effIllegal0011 word σ
  | .illegal1011 word => effIllegal1011 word σ
  | .illegal1110 word => effIllegal1110 word σ
  | .illegal1101 word => effIllegal1101 word σ

/-- The commit record of R108, field by field. -/
structure CommitRecord where
  pc : Word
  insn : Word
  regWe : Bool
  regIdx : Reg
  regVal : Word
  nzpWe : Bool
  nzpVal : Nzp
  dataWe : Bool
  dataAddr : Word
  dataVal : Word
  deriving DecidableEq, Repr

/-- The address of a data access. -/
def DataAccess.address (a : DataAccess) : Word :=
  match a with
  | .load addr _ => addr
  | .store addr _ => addr

/-- The word a data access moves. -/
def DataAccess.value (a : DataAccess) : Word :=
  match a with
  | .load _ val => val
  | .store _ val => val

/-- The access writes memory. -/
def DataAccess.isStore (a : DataAccess) : Bool :=
  match a with
  | .load _ _ => false
  | .store _ _ => true

/-- The record of a step that commits the writes `w` from the state `σ`: a field that does not apply is 0
(R109; D18, log 19). -/
def commitRecord (σ : State) (w : Writes) : CommitRecord :=
  { pc := σ.pc
    insn := σ.insn
    regWe := w.reg.isSome
    regIdx := (w.reg.map Prod.fst).getD 0
    regVal := (w.reg.map Prod.snd).getD 0
    nzpWe := w.nzp.isSome
    nzpVal := w.nzp.getD 0
    dataWe := (w.data.map DataAccess.isStore).getD false
    dataAddr := (w.data.map DataAccess.address).getD 0
    dataVal := (w.data.map DataAccess.value).getD 0 }

/-- The status code of a fault cause (R200; D16, log 11). -/
def FaultCause.code (c : FaultCause) : Nat :=
  match c with
  | .privilegeViolation => 1
  | .sectionTypeViolation => 2
  | .illegalInstruction => 3
  | .divideByZero => 4

/-- The outputs of one step request (R110). A port that the step does not use is none (log 20). -/
structure StepOutput where
  /-- `status`: 0, or the code of the fault. -/
  status : Nat
  /-- `commit`: the record, of a step that commits (R109; D19, log 19). -/
  commit : Option CommitRecord
  /-- `imem_addr`: the address fetched from, when the fetch check passes. -/
  imemAddr : Option Word
  /-- `dmem_addr`, `dmem_we`, and `dmem_rdata` or `dmem_wdata`: the data access made. -/
  dmem : Option DataAccess
  deriving DecidableEq, Repr

/-- `pc_out` (R110). -/
def pcOut (σ : State) : Word := σ.pc

/-- What a step request outputs in the state `σ`. While `FAULT` is set, `status` repeats its cause (R111). -/
def output (σ : State) : StepOutput :=
  match σ.fault with
  | some r => { status := r.cause.code, commit := none, imemAddr := none, dmem := none }
  | none =>
    match σ.check .fetch σ.pc with
    | some cause => { status := cause.code, commit := none, imemAddr := none, dmem := none }
    | none =>
      match effect (decode σ.insn) σ with
      | .raises r => { status := r.cause.code, commit := none, imemAddr := some σ.pc, dmem := none }
      | .commits w =>
        { status := 0
          commit := some (commitRecord σ w)
          imemAddr := some σ.pc
          dmem := w.data }

end Sys2Proof.Machine
end

