-- ==== Sys2Proof/Machine/RunLoop.lean ====
section
/-! DEFINITION. The host's run loop and how a run ends (70_reset_and_hazards.md R244, R247). -/

namespace Sys2Proof.Machine

/-- How a run ends (R247). -/
inductive RunEnd where
  /-- pc = HALT_PC before a step. -/
  | halted
  /-- A step returned a nonzero status; `FAULT` holds the record. -/
  | faulted (record : FaultRecord)
  /-- The host stopped stepping, here at its step limit (log 23). -/
  | cancelled
  deriving DecidableEq, Repr

/-- The end of a run, the state it leaves, and the commit records in order. -/
structure RunResult where
  ending : RunEnd
  state : State
  records : List CommitRecord
  deriving DecidableEq, Repr

/-- The loop of R244: the halt check before each fetch, then one step. `limit` is the host's step limit. -/
def runLoop (limit : Nat) (σ : State) : RunResult :=
  if pcOut σ = σ.params.haltPc then { ending := .halted, state := σ, records := [] }
  else
    match limit with
    | 0 => { ending := .cancelled, state := σ, records := [] }
    | k + 1 =>
      match step σ with
      | .next τ =>
        match τ.fault with
        | some r => { ending := .faulted r, state := τ, records := [] }
        | none =>
          let rest := runLoop k τ
          { rest with records := (output σ).commit.toList ++ rest.records }
      | .fault (.stopped r) => { ending := .faulted r, state := σ, records := [] }
      | .refused _ => { ending := .cancelled, state := σ, records := [] }

end Sys2Proof.Machine
end

