-- ==== Sys2Proof/Machine/Trace.lean ====
section
/-! DEFINITION. The trace line the host writes for a commit record (70_reset_and_hazards.md R245, R246;
D28, log 22). -/

namespace Sys2Proof.Machine

/-- One upper-case hexadecimal digit. -/
def hexDigit (v : BitVec 4) : Char :=
  Char.ofNat (if v.toNat < 10 then 48 + v.toNat else 55 + v.toNat)

/-- Four hexadecimal digits. -/
def hexWord (v : Word) : List Char :=
  [hexDigit (v.extractLsb' 12 4), hexDigit (v.extractLsb' 8 4), hexDigit (v.extractLsb' 4 4),
    hexDigit (v.extractLsb' 0 4)]

/-- One bit as a digit. -/
def bitDigit (b : Bool) : Char := if b then '1' else '0'

/-- Sixteen binary digits, bit 15 first. -/
def binWord (v : Word) : List Char := (List.range 16).map (fun i => bitDigit (v.getLsbD (15 - i)))

/-- A 3-bit number as one decimal digit. -/
def digit3 (v : BitVec 3) : Char := Char.ofNat (48 + v.toNat)

/-- The fields of the line, in the order of R245. -/
def traceFields (r : CommitRecord) : List (List Char) :=
  [hexWord r.pc, binWord r.insn, [bitDigit r.regWe], [digit3 r.regIdx], hexWord r.regVal,
    [bitDigit r.nzpWe], [digit3 r.nzpVal], [bitDigit r.dataWe], hexWord r.dataAddr, hexWord r.dataVal]

/-- The line: one space between fields, a newline at the end. -/
def traceLine (r : CommitRecord) : String :=
  String.ofList (List.intercalate [' '] (traceFields r) ++ ['\n'])

end Sys2Proof.Machine
end

