-- ==== Sys2Proof/Machine/Loader.lean ====
section
/-! DEFINITION. The host's boundary before a run: reset, and the loading of object files into memory
(70_reset_and_hazards.md R230 to R242). The loader is the host's, not the core's (00_scope.md R4). -/

namespace Sys2Proof.Machine

/-- A byte of an object file (R233). -/
abbrev FileByte := BitVec 8

/-- The host's reset request (R230): every state component gets its reset value; the parameters stay
(log 27). -/
def hostReset (σ : State) : State := State.resetWith σ.params

/-- The next big-endian 16-bit field: b0 * 256 + b1 (R233). -/
def takeField (bytes : List FileByte) : Option (Word × List FileByte) :=
  match bytes with
  | b0 :: b1 :: rest => some (b0 ++ b1, rest)
  | [_] => none
  | [] => none

/-- The bytes after the first `n`, none when there are fewer. -/
def skipBytes (n : Nat) (bytes : List FileByte) : Option (List FileByte) :=
  match n, bytes with
  | 0, rest => some rest
  | _ + 1, [] => none
  | k + 1, _ :: rest => skipBytes k rest

/-- Writes `n` words at consecutive addresses from `a`, modulo 65536 (R234), one at a time as they are
read; none for the rest when the file ends inside them (R240). -/
def loadWords (m : Memory) (a : Word) (n : Nat) (bytes : List FileByte) :
    Memory × Option (List FileByte) :=
  match n with
  | 0 => (m, some bytes)
  | k + 1 =>
    match takeField bytes with
    | some (v, rest) => loadWords (Memory.write m a v) (following a) k rest
    | none => (m, none)

/-- What loading leaves: memory, the unrecognised tags (R239), and whether it succeeded (R240). -/
structure LoadResult where
  mem : Memory
  warnings : List Word
  ok : Bool
  deriving DecidableEq, Repr

/-- The tags of R234 to R238. -/
def tagCode : Word := 0xCADE#16
def tagData : Word := 0xDADA#16
def tagSymbols : Word := 0xC3B7#16
def tagFileName : Word := 0xF17E#16
def tagLineNumber : Word := 0x715E#16

/-- The payload of one section after its tag: memory, and the bytes after the section; none for them when
the file ends inside the section. An unrecognised tag has no payload (R239). -/
def loadSection (m : Memory) (tag : Word) (bytes : List FileByte) : Memory × Option (List FileByte) :=
  if tag = tagCode ∨ tag = tagData then
    match takeField bytes with
    | none => (m, none)
    | some (start, bytes1) =>
      match takeField bytes1 with
      | none => (m, none)
      | some (count, bytes2) => loadWords m start count.toNat bytes2
  else if tag = tagSymbols then
    match takeField bytes with
    | none => (m, none)
    | some (_, bytes1) =>
      match takeField bytes1 with
      | none => (m, none)
      | some (count, bytes2) => (m, skipBytes count.toNat bytes2)
  else if tag = tagFileName then
    match takeField bytes with
    | none => (m, none)
    | some (count, bytes1) => (m, skipBytes count.toNat bytes1)
  else if tag = tagLineNumber then (m, skipBytes 6 bytes)
  else (m, some bytes)

/-- The tag is one of R234 to R238. -/
def knownTag (tag : Word) : Bool :=
  tag = tagCode || tag = tagData || tag = tagSymbols || tag = tagFileName || tag = tagLineNumber

/-- The sections of a file, at most `fuel` of them (each takes at least two bytes). -/
def loadSections (fuel : Nat) (m : Memory) (bytes : List FileByte) : LoadResult :=
  match bytes with
  | [] => { mem := m, warnings := [], ok := true }
  | _ :: _ =>
    match fuel with
    | 0 => { mem := m, warnings := [], ok := false }
    | k + 1 =>
      match takeField bytes with
      | none => { mem := m, warnings := [], ok := false }
      | some (tag, payload) =>
        match loadSection m tag payload with
        | (m1, none) => { mem := m1, warnings := [], ok := false }
        | (m1, some rest) =>
          let r := loadSections k m1 rest
          if knownTag tag then r else { r with warnings := tag :: r.warnings }

/-- One object file (R233 to R240). No region or privilege check is made (R242). -/
def loadFile (m : Memory) (bytes : List FileByte) : LoadResult := loadSections bytes.length m bytes

/-- Several files in sequence, the last writer wins (R241); a file that fails stops the loading (R240). -/
def loadFiles (m : Memory) (files : List (List FileByte)) : LoadResult :=
  match files with
  | [] => { mem := m, warnings := [], ok := true }
  | f :: rest =>
    let r := loadFile m f
    if r.ok then
      let r1 := loadFiles r.mem rest
      { r1 with warnings := r.warnings ++ r1.warnings }
    else r

/-- The launch state (R232; D29, log 21): the reset state with memory loaded; none when loading failed,
since the host should not run such an image (R240). -/
def launch (p : Params) (files : List (List FileByte)) : Option State :=
  let r := loadFiles (State.resetWith p).mem files
  if r.ok then some { State.resetWith p with mem := r.mem } else none

end Sys2Proof.Machine
end

