-- ==== Sys2Proof/Safety.lean ====
section
/-! DEFINITION. What counts as a good state and a safe run, in the terms the statements use. -/

namespace Sys2Proof.Machine

/-- Exactly one of N, Z, P is set (10_state.md R28). -/
abbrev oneFlag (c : Nzp) : Prop := c = 0b100#3 ∨ c = 0b010#3 ∨ c = 0b001#3

/-- The invariant of every state that a reset has reached: memory is in its canonical form (log 17), PSR[14:3] is 0
(R29), and exactly one of N, Z, P is set (R28). -/
abbrev State.Inv (σ : State) : Prop :=
  σ.mem.wf ∧ reservedOf σ.psr = 0x000#12 ∧ oneFlag (nzpOf σ.psr)

/-- The core runs: no fault is latched (60_exceptions.md R217). -/
abbrev State.running (σ : State) : Prop := σ.fault = none

/-- A fetch at pc is legal (20_memory.md R43). -/
abbrev State.fetchable (σ : State) : Prop := σ.check .fetch σ.pc = none

/-- The states of a run: a launch state (70_reset_and_hazards.md R232), and what a step leaves. -/
inductive Reachable : State → Prop where
  | launched (p : Params) (files : List (List FileByte)) (σ : State)
      (h : launch p files = some σ) : Reachable σ
  | stepped (σ τ : State) (h : Reachable σ) (hs : step σ = .next τ) : Reachable τ

/-- Two states that differ at most in the words of OS regions, as the first's `MEMMAP` classes them. -/
structure AgreeOutsideOS (σ τ : State) : Prop where
  regs : σ.regs = τ.regs
  pc : σ.pc = τ.pc
  psr : σ.psr = τ.psr
  fault : σ.fault = τ.fault
  params : σ.params = τ.params
  words : ∀ a : Word, isOS (classify σ.params.memMap a) = false → σ.word a = τ.word a

end Sys2Proof.Machine
end

