-- ==== Sys2Proof/Certificates/Slice0/Obligations.lean ====
section
/-! DEFINITION. The statements about the LC-4 core, and the words they use. The words (namespace
Sys2Proof.Claims) say what a rule says in numbers and bits, apart from the model's own ALU and PSR
functions. -/

namespace Sys2Proof.Claims

open Sys2Proof Sys2Proof.Machine

/-- The signed reading of a 16-bit number (00_scope.md R7). -/
def signed (v : Nat) : Int := if v < 32768 then (v : Int) else (v : Int) - 65536

/-- Every general register reads as before. -/
def sameRegs (s t : State) : Prop := ∀ r : Reg, t.reg r = s.reg r

/-- Every general register but `d` reads as before. -/
def sameRegsBut (d : Reg) (s t : State) : Prop := ∀ r : Reg, r ≠ d → t.reg r = s.reg r

/-- Every word of memory reads as before. -/
def sameMemory (s t : State) : Prop := ∀ a : Word, t.word a = s.word a

/-- `FAULT` and the parameters are as before. -/
def sameLatch (s t : State) : Prop := t.fault = s.fault ∧ t.params = s.params

/-- PSR bits from `k` up are as before. -/
def samePsrFrom (k : Nat) (s t : State) : Prop :=
  ∀ b : Nat, k ≤ b → t.psr.getLsbD b = s.psr.getLsbD b

/-- N is bit 2, Z is bit 1, P is bit 0, and they tell the sign of the integer `n` (R26, R106). -/
def flagsTell (n : Int) (t : State) : Prop :=
  (t.psr.getLsbD 2 = true ↔ n < 0) ∧ (t.psr.getLsbD 1 = true ↔ n = 0) ∧
    (t.psr.getLsbD 0 = true ↔ 0 < n)

/-- The next pc is pc + 1, modulo 65536 (R104). -/
def pcPlusOne (s t : State) : Prop := t.pc.toNat = (s.pc.toNat + 1) % 65536

/-- The frame of an instruction that writes x[d] and takes the flags from it: every other register, PSR
bits 15:3, every word of memory, `FAULT` and the parameters are as before, and pc advances by 1. -/
def resultFrame (d : Reg) (s t : State) : Prop :=
  sameRegsBut d s t ∧ flagsTell (signed (t.reg d).toNat) t ∧ samePsrFrom 3 s t ∧
    sameMemory s t ∧ pcPlusOne s t ∧ sameLatch s t

/-- `i` answers a next state in which x[d] is the number `v`, with the frame above. -/
def givesNumber (i : Instr) (s : State) (d : Reg) (v : Nat) : Prop :=
  ∃ t, exec i s = .next t ∧ (t.reg d).toNat = v ∧ resultFrame d s t

/-- `i` answers a next state in which bit k of x[d] is `f k`, with the frame above. -/
def givesBits (i : Instr) (s : State) (d : Reg) (f : Nat → Bool) : Prop :=
  ∃ t, exec i s = .next t ∧ (∀ k, k < 16 → (t.reg d).getLsbD k = f k) ∧ resultFrame d s t

/-- `i` answers a next state in which only the flags, from the integer `n`, and pc, by 1, change. -/
def givesFlags (i : Instr) (s : State) (n : Int) : Prop :=
  ∃ t, exec i s = .next t ∧ flagsTell n t ∧ samePsrFrom 3 s t ∧ sameRegs s t ∧
    sameMemory s t ∧ pcPlusOne s t ∧ sameLatch s t

/-- `i` answers a next state in which only pc changes, to the number `v`. -/
def movesPc (i : Instr) (s : State) (v : Nat) : Prop :=
  ∃ t, exec i s = .next t ∧ t.pc.toNat = v ∧ t.psr = s.psr ∧ sameRegs s t ∧
    sameMemory s t ∧ sameLatch s t

/-- The link: x[7] is pc + 1 modulo 65536, the flags tell its sign, and every other register, PSR bits
14:3, memory, `FAULT` and the parameters are as before. PSR bit 15 and pc are left to the caller. -/
def linksR7 (s t : State) : Prop :=
  (t.reg 7#3).toNat = (s.pc.toNat + 1) % 65536 ∧
    flagsTell (signed ((s.pc.toNat + 1) % 65536)) t ∧ sameRegsBut 7#3 s t ∧
    (∀ b : Nat, 3 ≤ b → b < 15 → t.psr.getLsbD b = s.psr.getLsbD b) ∧
    sameMemory s t ∧ sameLatch s t

/-- Only `FAULT` changes, to the record `r` (60_exceptions.md R202). -/
def latchesOnly (s t : State) (r : FaultRecord) : Prop :=
  t.regs = s.regs ∧ t.pc = s.pc ∧ t.psr = s.psr ∧ t.mem = s.mem ∧ t.params = s.params ∧
    t.fault = some r

/-- Every word in the row (mask, bits) decodes to `f` of the word. -/
def rowDecodes (mask bits : Word) (f : Word → Instr) : Prop :=
  ∀ w : Word, w &&& mask = bits → decode w = f w

/-- PSR bit 15 is 1: supervisor mode (R26). -/
def supervisor (s : State) : Prop := s.psr.getLsbD 15 = true

/-- `MEMMAP(a)`. -/
def regionAt (s : State) (a : Word) : Region := classify s.params.memMap a

/-- An OS region: OSCode or OSData (R10). -/
def inOS (s : State) (a : Word) : Prop := regionAt s a = .osCode ∨ regionAt s a = .osData

/-- A legal fetch (20_memory.md R43). -/
def fetchLegal (s : State) (a : Word) : Prop :=
  regionAt s a = .userCode ∨ (supervisor s ∧ regionAt s a = .osCode)

/-- A legal data access (20_memory.md R44). -/
def dataLegal (s : State) (a : Word) : Prop :=
  regionAt s a = .userData ∨ (supervisor s ∧ regionAt s a = .osData)

/-- A BR form with condition mask `m` (41_branch.md R120): taken exactly when the mask and the flags have
a bit in common, and nothing but pc changes. -/
def branchRule (c : BitVec 9 → Instr) (m : BitVec 3) : Prop :=
  ∀ (imm9 : BitVec 9) (s : State),
    ((∃ k, k < 3 ∧ m.getLsbD k = true ∧ s.psr.getLsbD k = true) →
      movesPc (c imm9) s (((s.pc.toNat : Int) + 1 + imm9.toInt) % 65536).toNat) ∧
    ((¬ ∃ k, k < 3 ∧ m.getLsbD k = true ∧ s.psr.getLsbD k = true) →
      movesPc (c imm9) s ((s.pc.toNat + 1) % 65536))

/-- The record of a data fault of the access `k` at `ea` (R201). -/
def dataRecord (s : State) (c : FaultCause) (k : FaultKind) (ea : Word) : FaultRecord :=
  { cause := c, kind := k, pc := s.pc, addr := ea, insn := some (s.word s.pc) }

/-- The cause R45 gives for an access at `a` that is not legal. -/
def violation (s : State) (a : Word) (c : FaultCause) : Prop :=
  (¬ supervisor s ∧ inOS s a ∧ c = .privilegeViolation) ∨
    (¬ (¬ supervisor s ∧ inOS s a) ∧ c = .sectionTypeViolation)

/-- The instructions that 10_state.md R23 lists as writing x[d], with that d; R7 for JSR, JSRR, TRAP. -/
def listedWrites (i : Instr) : Option Reg :=
  match i with
  | .add d _ _ => some d
  | .mul d _ _ => some d
  | .sub d _ _ => some d
  | .div d _ _ => some d
  | .addi d _ _ => some d
  | .and d _ _ => some d
  | .not d _ => some d
  | .or d _ _ => some d
  | .xor d _ _ => some d
  | .andi d _ _ => some d
  | .ldr d _ _ => some d
  | .const d _ => some d
  | .hiconst d _ => some d
  | .sll d _ _ => some d
  | .sra d _ _ => some d
  | .srl d _ _ => some d
  | .mod d _ _ => some d
  | .jsr _ => some 7#3
  | .jsrr _ => some 7#3
  | .trap _ => some 7#3
  | .nop _ => none
  | .brp _ => none
  | .brz _ => none
  | .brzp _ => none
  | .brn _ => none
  | .brnp _ => none
  | .brnz _ => none
  | .brnzp _ => none
  | .cmp _ _ => none
  | .cmpu _ _ => none
  | .cmpi _ _ => none
  | .cmpiu _ _ => none
  | .str _ _ _ => none
  | .jmp _ => none
  | .jmpr _ => none
  | .rti => none
  | .illegal0011 _ => none
  | .illegal1011 _ => none
  | .illegal1110 _ => none
  | .illegal1101 _ => none

/-- The instructions that 40_execute_common.md R107 lists as calling `setcc`. -/
def listedFlags (i : Instr) : Bool :=
  match i with
  | .add _ _ _ => true
  | .mul _ _ _ => true
  | .sub _ _ _ => true
  | .div _ _ _ => true
  | .addi _ _ _ => true
  | .cmp _ _ => true
  | .cmpu _ _ => true
  | .cmpi _ _ => true
  | .cmpiu _ _ => true
  | .ldr _ _ _ => true
  | .const _ _ => true
  | .hiconst _ _ => true
  | .sll _ _ _ => true
  | .sra _ _ _ => true
  | .srl _ _ _ => true
  | .mod _ _ _ => true
  | .and _ _ _ => true
  | .not _ _ => true
  | .or _ _ _ => true
  | .xor _ _ _ => true
  | .andi _ _ _ => true
  | .jsr _ => true
  | .jsrr _ => true
  | .trap _ => true
  | .nop _ => false
  | .brp _ => false
  | .brz _ => false
  | .brzp _ => false
  | .brn _ => false
  | .brnp _ => false
  | .brnz _ => false
  | .brnzp _ => false
  | .str _ _ _ => false
  | .jmp _ => false
  | .jmpr _ => false
  | .rti => false
  | .illegal0011 _ => false
  | .illegal1011 _ => false
  | .illegal1110 _ => false
  | .illegal1101 _ => false

/-- The instructions that 40_execute_common.md R104 lists as giving their own target. -/
def listedTargets (i : Instr) : Bool :=
  match i with
  | .nop _ => true
  | .brp _ => true
  | .brz _ => true
  | .brzp _ => true
  | .brn _ => true
  | .brnp _ => true
  | .brnz _ => true
  | .brnzp _ => true
  | .jmp _ => true
  | .jmpr _ => true
  | .jsr _ => true
  | .jsrr _ => true
  | .trap _ => true
  | .rti => true
  | .add _ _ _ => false
  | .mul _ _ _ => false
  | .sub _ _ _ => false
  | .div _ _ _ => false
  | .addi _ _ _ => false
  | .cmp _ _ => false
  | .cmpu _ _ => false
  | .cmpi _ _ => false
  | .cmpiu _ _ => false
  | .and _ _ _ => false
  | .not _ _ => false
  | .or _ _ _ => false
  | .xor _ _ _ => false
  | .andi _ _ _ => false
  | .ldr _ _ _ => false
  | .str _ _ _ => false
  | .const _ _ => false
  | .hiconst _ _ => false
  | .sll _ _ _ => false
  | .sra _ _ _ => false
  | .srl _ _ _ => false
  | .mod _ _ _ => false
  | .illegal0011 _ => false
  | .illegal1011 _ => false
  | .illegal1110 _ => false
  | .illegal1101 _ => false

/-- The don't-care bits of each row of opcode_table.json (30_encoding.md R66), as a mask. -/
def dontCare (i : Instr) : Word :=
  match i with
  | .cmp _ _ => 0x0078#16
  | .cmpu _ _ => 0x0078#16
  | .jsrr _ => 0x063F#16
  | .jmpr _ => 0x063F#16
  | .rti => 0x0FFF#16
  | .mod _ _ _ => 0x0008#16
  | .trap _ => 0x0F00#16
  | .not _ _ => 0x0007#16
  | .nop _ => 0x0000#16
  | .brp _ => 0x0000#16
  | .brz _ => 0x0000#16
  | .brzp _ => 0x0000#16
  | .brn _ => 0x0000#16
  | .brnp _ => 0x0000#16
  | .brnz _ => 0x0000#16
  | .brnzp _ => 0x0000#16
  | .add _ _ _ => 0x0000#16
  | .mul _ _ _ => 0x0000#16
  | .sub _ _ _ => 0x0000#16
  | .div _ _ _ => 0x0000#16
  | .addi _ _ _ => 0x0000#16
  | .cmpi _ _ => 0x0000#16
  | .cmpiu _ _ => 0x0000#16
  | .jsr _ => 0x0000#16
  | .and _ _ _ => 0x0000#16
  | .or _ _ _ => 0x0000#16
  | .xor _ _ _ => 0x0000#16
  | .andi _ _ _ => 0x0000#16
  | .ldr _ _ _ => 0x0000#16
  | .str _ _ _ => 0x0000#16
  | .const _ _ => 0x0000#16
  | .sll _ _ _ => 0x0000#16
  | .sra _ _ _ => 0x0000#16
  | .srl _ _ _ => 0x0000#16
  | .jmp _ => 0x0000#16
  | .hiconst _ _ => 0x0000#16
  | .illegal0011 _ => 0x0000#16
  | .illegal1011 _ => 0x0000#16
  | .illegal1110 _ => 0x0000#16
  | .illegal1101 _ => 0x0000#16

/-- Committed steps lead from `s` to `u`, none of them taken at HALT_PC, and `cs` are their records in order
(70_reset_and_hazards.md R244). -/
def commitsAlong (s : State) (cs : List CommitRecord) (u : State) : Prop :=
  match cs with
  | [] => s = u
  | c :: rest =>
    s.pc ≠ s.params.haltPc ∧
      ∃ t, step s = .next t ∧ t.fault = none ∧ (output s).commit = some c ∧ commitsAlong t rest u

/-- The run `r` of at most `n` steps, of which the last committed one left `u`, ends as R247 says: halted in
`u`, at HALT_PC; faulted, by the step from `u` that latched the record, or at once where `u` has it latched;
cancelled in `u`, the `n` steps used up. -/
def runEnds (n : Nat) (r : RunResult) (u : State) : Prop :=
  match r.ending with
  | .halted => r.state = u ∧ u.pc = u.params.haltPc
  | .faulted f =>
    u.pc ≠ u.params.haltPc ∧ r.state.fault = some f ∧ (step u = .next r.state ∨ r.state = u)
  | .cancelled => r.state = u ∧ u.pc ≠ u.params.haltPc ∧ r.records.length = n

/-- The two bytes of a word as an object file holds them, high byte first (70_reset_and_hazards.md R233). -/
def fileBytes (w : Word) : List FileByte := [w.extractLsb' 8 8, w.extractLsb' 0 8]

/-- A section of the shape R234 gives: a tag, a start address, a word count, the words. -/
def wordSection (tag start : Word) (words : List Word) : List FileByte :=
  fileBytes tag ++ fileBytes start ++ fileBytes (BitVec.ofNat 16 words.length) ++
    words.flatMap fileBytes

end Sys2Proof.Claims

open Sys2Proof Sys2Proof.Machine Sys2Proof.Claims

/-! ## Reset and the step -/

/-- Reset leaves every register 0x0000, PSR 0x8001, every memory word 0x0000, no fault, and pc at RESET_PC;
reset from any state gives this, so resetting twice is resetting once. The default RESET_PC = 0x8200 is
the spec's own choice D2 (log 3), and the fault latch its D17 (log 10). -/
def Obligations.ResetLeavesTheResetState : Prop :=
  (∀ s : State,
    (∀ r : Reg, (hostReset s).reg r = 0x0000#16) ∧ (hostReset s).pc = s.params.resetPc ∧
      (hostReset s).psr = 0x8001#16 ∧ (∀ a : Word, (hostReset s).word a = 0x0000#16) ∧
      (hostReset s).fault = none ∧ hostReset (hostReset s) = hostReset s) ∧
  hostReset State.reset = State.reset ∧ State.reset.pc = 0x8200#16

/-- The reset state, with any parameters, meets the invariant: PSR[14:3] zero (R29), exactly one flag set
(R28), and memory in its canonical form, a clause that is the model's own choice (log 17). -/
def Obligations.ResetMeetsTheInvariant : Prop := ∀ p : Params, (State.resetWith p).Inv

/-- A step of a running core whose fetch is legal runs the decoded instruction: when the word at pc decodes
to the well-formed `i`, `step` is `exec i`. Nothing else is added around it: pc is still the address of
the instruction when it executes, and each meaning writes the next pc itself. -/
def Obligations.StepRunsTheDecodedInstruction : Prop :=
  ∀ (s : State) (i : Instr), s.fault = none → fetchLegal s s.pc → i.wellFormed = true →
    decode (s.word s.pc) = i → step s = exec i s

/-- While `FAULT` is set the core has no step, and `status` repeats the recorded cause. That the outcome is
`Fault.stopped` is the model's choice (log 10); the latch is the spec's D17. -/
def Obligations.StoppedCoreHasNoStep : Prop :=
  ∀ (s : State) (r : FaultRecord), s.fault = some r →
    step s = .fault (.stopped r) ∧ (output s).status = r.cause.code ∧ (output s).commit = none

/-! ## Encoding -/

/-- Words written out bit by bit from the formats of R62 (D7, log 7) decode to what they stand for: one or
more a family. -/
def Obligations.WrittenOutWordsDecode : Prop :=
  decode 0b0000101000000011#16 = .brnp 3#9 ∧
  decode 0b0001010000000001#16 = .add 2#3 0#3 1#3 ∧
  decode 0b0010010101111111#16 = .cmpi 2#3 127#7 ∧
  decode 0b0100100000100001#16 = .jsr 33#11 ∧
  decode 0b0001110000011001#16 = .div 6#3 0#3 1#3 ∧
  decode 0b0010011001111101#16 = .cmp 3#3 5#3 ∧
  decode 0b0010011010000101#16 = .cmpu 3#3 5#3 ∧
  decode 0b0010010111000001#16 = .cmpiu 2#3 65#7 ∧
  decode 0b0100011101010101#16 = .jsrr 5#3 ∧
  decode 0b1010011000111001#16 = .mod 3#3 0#3 1#3 ∧
  decode 0b0101110001110000#16 = .andi 6#3 1#3 16#5 ∧
  decode 0b0110100010000001#16 = .ldr 4#3 2#3 1#6 ∧
  decode 0b0111011010000001#16 = .str 3#3 2#3 1#6 ∧
  decode 0b1000000000000000#16 = .rti ∧
  decode 0b1001000000000101#16 = .const 0#3 5#9 ∧
  decode 0b1010101100010001#16 = .sra 5#3 4#3 1#4 ∧
  decode 0b1100000111000000#16 = .jmpr 7#3 ∧
  decode 0b1101010110100000#16 = .hiconst 2#3 160#8 ∧
  decode 0b1111000000100010#16 = .trap 34#8 ∧
  decode 0b0011000000000000#16 = .illegal0011 0x3000#16 ∧
  decode 0b1101010010100000#16 = .illegal1101 0xD4A0#16

/-- Decoding the encoding of a well-formed instruction gives the instruction back, with every operand at
every value. -/
def Obligations.DecodeOfEncodeIsTheInstruction : Prop :=
  ∀ i : Instr, i.wellFormed = true → decode (encode i) = i

/-- Decoding is total, and every word lies in exactly one row of opcode_table.json, the row of the
instruction it decodes to, which is well-formed. -/
def Obligations.EveryWordIsInExactlyItsRow : Prop :=
  ∀ w : Word, (decode w).wellFormed = true ∧ rowIndex (decode w) < 40 ∧
    ∀ k, k < 40 →
      ((w &&& (opcodeTable.getD k (0#16, 1#16)).1 = (opcodeTable.getD k (0#16, 1#16)).2) ↔
        k = rowIndex (decode w))

/-- The don't-care bits of a word change nothing: the word with any of them flipped decodes to the same
instruction. The spec's decision D6 (log 8). -/
def Obligations.DontCareBitsAreIgnored : Prop :=
  ∀ w x : Word, decode (w ^^^ (x &&& dontCare (decode w))) = decode w

/-! ## Invariants and rules of the whole machine -/

/-- Every step keeps the invariant: PSR[14:3] zero (R29), exactly one flag set (R28), and memory in its
canonical form, a clause that is the model's own choice (log 17). -/
def Obligations.StepKeepsTheInvariant : Prop :=
  ∀ s t : State, s.Inv → step s = .next t → t.Inv

/-- Every state of a run, from any image the host loads with any parameters, meets the invariant (R28, R29,
R232). That memory is in its canonical form is the model's own choice (log 17). -/
def Obligations.EveryReachableStateMeetsTheInvariant : Prop :=
  ∀ s : State, Reachable s → s.Inv

/-- Canonical memories that read alike at every word address are equal. The form is the model's own choice
(log 17). -/
def Obligations.CanonicalMemoriesThatReadAlikeAreEqual : Prop :=
  ∀ m n : Memory, m.wf → n.wf → (∀ a : Word, Memory.read m a = Memory.read n a) → m = n

/-- No step changes the parameters (log 1). -/
def Obligations.StepKeepsTheParameters : Prop :=
  ∀ s t : State, step s = .next t → t.params = s.params

/-- Faults are precise: a step that sets `FAULT` changes nothing else, outputs no commit record and reports
the cause's code, and the record says where. The latch and the record are the spec's D16, D17, D19. -/
def Obligations.FaultsArePrecise : Prop :=
  ∀ (s t : State) (r : FaultRecord), step s = .next t → t.fault = some r →
    latchesOnly s t r ∧ r.pc = s.pc ∧
    (r.kind = .fetch → r.addr = s.pc ∧ r.insn = none) ∧
    (r.kind ≠ .fetch → r.insn = some (s.word s.pc)) ∧
    (r.kind = .decode ∨ r.kind = .execute → r.addr = s.pc) ∧
    (r.kind = .load → ∃ d b imm6, decode (s.word s.pc) = .ldr d b imm6 ∧
      r.addr = effectiveAddress (s.reg b) imm6) ∧
    (r.kind = .store → ∃ d b imm6, decode (s.word s.pc) = .str d b imm6 ∧
      r.addr = effectiveAddress (s.reg b) imm6) ∧
    (output s).commit = none ∧ (output s).status = r.cause.code

/-- R23: the listed instructions write x[d], JSR, JSRR and TRAP write x[7], and the others write no general
register; none writes a second register. That one writes shows in the commit record of its step, which names
the register. -/
def Obligations.OnlyTheListedRegisterIsWritten : Prop :=
  (∀ (i : Instr) (s t : State), exec i s = .next t →
    match listedWrites i with
    | some d => sameRegsBut d s t
    | none => sameRegs s t) ∧
  ∀ (s : State) (c : CommitRecord), (output s).commit = some c →
    match listedWrites (decode (s.word s.pc)) with
    | some d => c.regWe = true ∧ c.regIdx = d
    | none => c.regWe = false

/-- R107: `setcc(n)` writes cc(n) to PSR[2:0] and leaves PSR[15:3] unchanged; a listed instruction that
commits leaves exactly one of N, Z, P set, any other instruction leaves PSR[2:0] unchanged, and no
instruction changes PSR[14:3]. -/
def Obligations.OnlyTheListedInstructionsWriteFlags : Prop :=
  (∀ (psr : Word) (n : Int),
    ((withNzp psr (cc n)).getLsbD 2 = true ↔ n < 0) ∧
    ((withNzp psr (cc n)).getLsbD 1 = true ↔ n = 0) ∧
    ((withNzp psr (cc n)).getLsbD 0 = true ↔ 0 < n) ∧
    ∀ k : Nat, 3 ≤ k → (withNzp psr (cc n)).getLsbD k = psr.getLsbD k) ∧
  ∀ (i : Instr) (s t : State), s.fault = none → exec i s = .next t →
    (listedFlags i = true → t.fault = none → oneFlag (nzpOf t.psr)) ∧
    (listedFlags i = false → nzpOf t.psr = nzpOf s.psr) ∧
    reservedOf t.psr = reservedOf s.psr

/-- R212: reset enters supervisor mode, TRAP enters supervisor mode, RTI enters user mode at the address in
R7, and no other step changes the mode. -/
def Obligations.ModeChangesInThreeWays : Prop :=
  (∀ s : State, supervisor (hostReset s)) ∧
  ∀ s t : State, step s = .next t →
    ((∃ u, decode (s.word s.pc) = .trap u) → t.fault = none → supervisor t) ∧
    (decode (s.word s.pc) = .rti → t.fault = none → ¬ supervisor t ∧ t.pc = s.reg 7#3) ∧
    (supervisor s → ¬ supervisor t → decode (s.word s.pc) = .rti ∧ t.pc = s.reg 7#3) ∧
    (¬ supervisor s → supervisor t → ∃ u, decode (s.word s.pc) = .trap u)

/-- R104: an instruction that gives no target of its own writes pc + 1 when it commits, and a fault leaves
pc at the faulting instruction. -/
def Obligations.PcAdvancesByOneUnlessRedirected : Prop :=
  ∀ (i : Instr) (s t : State), s.fault = none → exec i s = .next t →
    (t.fault = none → listedTargets i = false → pcPlusOne s t) ∧
    (t.fault ≠ none → t.pc = s.pc)

/-- R22: JSR, JSRR and TRAP write x[7] with pc + 1, and RTI goes to x[7]. -/
def Obligations.RegisterSevenIsTheLinkRegister : Prop :=
  ∀ s t : State,
    ((∃ imm11, exec (.jsr imm11) s = .next t) ∨ (∃ b, exec (.jsrr b) s = .next t) ∨
      (∃ u, exec (.trap u) s = .next t) → (t.reg 7#3).toNat = (s.pc.toNat + 1) % 65536) ∧
    (exec .rti s = .next t → t.pc = s.reg 7#3)

/-- R52: under any `MEMMAP`, no step changes a word of a code region, so a program cannot modify code. -/
def Obligations.StepsNeverChangeCode : Prop :=
  ∀ (s t : State) (a : Word), step s = .next t →
    (regionAt s a = .userCode ∨ regionAt s a = .osCode) → t.word a = s.word a

/-- A step changes a word of memory only by a STR, at its effective address, to the register stored, in a
data region the mode may access. -/
def Obligations.OnlyStrChangesMemory : Prop :=
  ∀ (s t : State) (a : Word), step s = .next t → t.word a ≠ s.word a →
    ∃ r b imm6, decode (s.word s.pc) = .str r b imm6 ∧
      a = effectiveAddress (s.reg b) imm6 ∧ t.word a = s.reg r ∧ dataLegal s a

/-- A user-mode step neither changes a word of an OS region nor depends on one: from two states that differ
at most there it does the same. -/
def Obligations.UserModeIsIsolatedFromTheOS : Prop :=
  ∀ s u t : State, AgreeOutsideOS s u → ¬ supervisor s → step s = .next t →
    ∃ v, step u = .next v ∧ AgreeOutsideOS t v ∧
      ∀ a : Word, inOS s a → t.word a = s.word a ∧ v.word a = u.word a

/-! ## Protection -/

/-- R43: a step of a running core ends in a fetch fault exactly when the fetch is not legal; in user mode in
an OS region the cause is a privilege violation, and that of every other illegal fetch is a section-type
violation (R45, R101, R200). -/
def Obligations.FetchIsLegalOnlyInACodeRegion : Prop :=
  ∀ s : State, s.fault = none →
    ((∃ t r, step s = .next t ∧ t.fault = some r ∧ r.kind = .fetch) ↔ ¬ fetchLegal s s.pc) ∧
    (¬ supervisor s → inOS s s.pc →
      ∃ t r, step s = .next t ∧ t.fault = some r ∧ r.cause = .privilegeViolation ∧ r.kind = .fetch) ∧
    (¬ fetchLegal s s.pc → ¬ (¬ supervisor s ∧ inOS s s.pc) →
      ∃ t r, step s = .next t ∧ t.fault = some r ∧ r.cause = .sectionTypeViolation ∧ r.kind = .fetch)

/-- R44: LDR and STR complete exactly when the access is legal, and a supervisor's access to a code region
is a section-type violation. -/
def Obligations.DataAccessIsLegalOnlyInADataRegion : Prop :=
  ∀ (s : State) (r b : Reg) (imm6 : BitVec 6), s.fault = none →
    (∀ i : Instr, i = .ldr r b imm6 ∨ i = .str r b imm6 →
      ((∃ t, exec i s = .next t ∧ t.fault = none) ↔
        dataLegal s (effectiveAddress (s.reg b) imm6)) ∧
      (supervisor s →
        (regionAt s (effectiveAddress (s.reg b) imm6) = .userCode ∨
          regionAt s (effectiveAddress (s.reg b) imm6) = .osCode) →
        ∃ t f, exec i s = .next t ∧ t.fault = some f ∧ f.cause = .sectionTypeViolation))

/-- The default map in numbers, and its boundary: one word inside the OS regions a user access faults, one
word outside it does not. The default map is the spec's own choice D1 (log 2). -/
def Obligations.DefaultMapRangesAndBoundary : Prop :=
  (∀ a : Word, classify defaultMemMap a =
    if a.toNat < 0x2000 then .userCode else if a.toNat < 0x8000 then .userData
    else if a.toNat < 0xA000 then .osCode else .osData) ∧
  (∀ (s : State) (r b : Reg), s.params.memMap = defaultMemMap → ¬ supervisor s → s.fault = none →
    (s.reg b = 0x8000#16 →
      (∃ t f, exec (.ldr r b 0#6) s = .next t ∧ t.fault = some f ∧ f.cause = .privilegeViolation) ∧
      (∃ t f, exec (.str r b 0#6) s = .next t ∧ t.fault = some f ∧ f.cause = .privilegeViolation)) ∧
    (s.reg b = 0x7FFF#16 →
      (∃ t, exec (.ldr r b 0#6) s = .next t ∧ t.fault = none) ∧
      (∃ t, exec (.str r b 0#6) s = .next t ∧ t.fault = none)))

/-- Every total function of the address into the four classes is some `MEMMAP` of the model. -/
def Obligations.EveryMemoryMapCanBeGiven : Prop :=
  ∀ f : Word → Region, ∃ m : MemMap, ∀ a : Word, classify m a = f a

/-! ## The instructions -/

/-- NOP and the seven branches (R120 to R128): encoding and effect, in every state. The mask's places are the
spec's D7 (log 7). -/
def Obligations.BranchesTakenOnACommonFlag : Prop :=
  (rowDecodes 0xFE00#16 0x0000#16 (fun w => .nop (w.extractLsb' 0 9)) ∧ branchRule .nop 0b000#3) ∧
  (rowDecodes 0xFE00#16 0x0200#16 (fun w => .brp (w.extractLsb' 0 9)) ∧ branchRule .brp 0b001#3) ∧
  (rowDecodes 0xFE00#16 0x0400#16 (fun w => .brz (w.extractLsb' 0 9)) ∧ branchRule .brz 0b010#3) ∧
  (rowDecodes 0xFE00#16 0x0600#16 (fun w => .brzp (w.extractLsb' 0 9)) ∧ branchRule .brzp 0b011#3) ∧
  (rowDecodes 0xFE00#16 0x0800#16 (fun w => .brn (w.extractLsb' 0 9)) ∧ branchRule .brn 0b100#3) ∧
  (rowDecodes 0xFE00#16 0x0A00#16 (fun w => .brnp (w.extractLsb' 0 9)) ∧ branchRule .brnp 0b101#3) ∧
  (rowDecodes 0xFE00#16 0x0C00#16 (fun w => .brnz (w.extractLsb' 0 9)) ∧ branchRule .brnz 0b110#3) ∧
  (rowDecodes 0xFE00#16 0x0E00#16 (fun w => .brnzp (w.extractLsb' 0 9)) ∧ branchRule .brnzp 0b111#3)

/-- ADD, MUL, SUB (R130 to R132): the exact result modulo 65536, in every state. -/
def Obligations.AddMulSubAreModulo65536 : Prop :=
  rowDecodes 0xF038#16 0x1000#16
    (fun w => .add (w.extractLsb' 9 3) (w.extractLsb' 6 3) (w.extractLsb' 0 3)) ∧
  rowDecodes 0xF038#16 0x1008#16
    (fun w => .mul (w.extractLsb' 9 3) (w.extractLsb' 6 3) (w.extractLsb' 0 3)) ∧
  rowDecodes 0xF038#16 0x1010#16
    (fun w => .sub (w.extractLsb' 9 3) (w.extractLsb' 6 3) (w.extractLsb' 0 3)) ∧
  ∀ (s : State) (d a b : Reg),
    givesNumber (.add d a b) s d (((s.reg a).toNat + (s.reg b).toNat) % 65536) ∧
    givesNumber (.mul d a b) s d ((s.reg a).toNat * (s.reg b).toNat % 65536) ∧
    givesNumber (.sub d a b) s d
      ((((s.reg a).toNat : Int) - ((s.reg b).toNat : Int)) % 65536).toNat

/-- ADDI (R134): the sum with the signed IMM5, modulo 65536, in every state. The mode bit's place is the spec's
D7 (log 7). -/
def Obligations.AddiAddsTheSignedImmediate : Prop :=
  rowDecodes 0xF020#16 0x1020#16
    (fun w => .addi (w.extractLsb' 9 3) (w.extractLsb' 6 3) (w.extractLsb' 0 5)) ∧
  ∀ (s : State) (d a : Reg) (imm5 : BitVec 5),
    givesNumber (.addi d a imm5) s d ((((s.reg a).toNat : Int) + imm5.toInt) % 65536).toNat

/-- DIV and MOD (R133, R173), encoding (D6, D7; logs 8, 7) and result: the unsigned quotient and remainder, and 0 for a zero divisor under
`ZeroResult`, in every state but for a zero divisor under `Fault`. Unsigned is the spec's D8 (log 12), the
zero result its D9 (log 5). -/
def Obligations.DivModAreUnsigned : Prop :=
  rowDecodes 0xF038#16 0x1018#16
    (fun w => .div (w.extractLsb' 9 3) (w.extractLsb' 6 3) (w.extractLsb' 0 3)) ∧
  rowDecodes 0xF030#16 0xA030#16
    (fun w => .mod (w.extractLsb' 9 3) (w.extractLsb' 6 3) (w.extractLsb' 0 3)) ∧
  ∀ (s : State) (d a b : Reg),
    (s.reg b ≠ 0#16 →
      givesNumber (.div d a b) s d ((s.reg a).toNat / (s.reg b).toNat) ∧
      givesNumber (.mod d a b) s d ((s.reg a).toNat % (s.reg b).toNat)) ∧
    (s.reg b = 0#16 → s.params.divByZero = .zeroResult →
      givesNumber (.div d a b) s d 0 ∧ givesNumber (.mod d a b) s d 0)

/-- DIV and MOD under `DIV_BY_ZERO = Fault`: a zero divisor raises DivideByZero and changes nothing else
(D9, log 5). -/
def Obligations.DivModByZeroCanFault : Prop :=
  ∀ (s : State) (d a b : Reg), s.reg b = 0#16 → s.params.divByZero = .fault →
    ∀ i : Instr, i = .div d a b ∨ i = .mod d a b →
      ∃ t, exec i s = .next t ∧
        latchesOnly s t
          { cause := .divideByZero, kind := .execute, pc := s.pc, addr := s.pc,
            insn := some (s.word s.pc) }

/-- Quotient and remainder fit together (R105): for a divisor that is not 0, DIV's result times the divisor
plus MOD's result is the dividend, and MOD's result is below the divisor (D8, log 12). -/
def Obligations.QuotientAndRemainderFit : Prop :=
  ∀ (s t u : State) (q r a b : Reg), s.reg b ≠ 0#16 →
    exec (.div q a b) s = .next t → exec (.mod r a b) s = .next u →
    (t.reg q).toNat * (s.reg b).toNat + (u.reg r).toNat = (s.reg a).toNat ∧
      (u.reg r).toNat < (s.reg b).toNat

/-- CMP, CMPU, CMPI, CMPIU (R140 to R143): their words, the first source in I[11:9] and I[6:3] of the register
forms ignored (D6, D7; logs 8, 7), and the flags tell the sign of the exact difference, and nothing else
but pc changes, in every state. The exact difference is the spec's D10 (log 13). -/
def Obligations.ComparesTellTheExactDifference : Prop :=
  rowDecodes 0xF180#16 0x2000#16
    (fun w => .cmp (w.extractLsb' 9 3) (w.extractLsb' 0 3)) ∧
  rowDecodes 0xF180#16 0x2080#16
    (fun w => .cmpu (w.extractLsb' 9 3) (w.extractLsb' 0 3)) ∧
  rowDecodes 0xF180#16 0x2100#16
    (fun w => .cmpi (w.extractLsb' 9 3) (w.extractLsb' 0 7)) ∧
  rowDecodes 0xF180#16 0x2180#16
    (fun w => .cmpiu (w.extractLsb' 9 3) (w.extractLsb' 0 7)) ∧
  ∀ (s : State) (a b : Reg) (imm7 : BitVec 7),
    givesFlags (.cmp a b) s (signed (s.reg a).toNat - signed (s.reg b).toNat) ∧
    givesFlags (.cmpu a b) s (((s.reg a).toNat : Int) - ((s.reg b).toNat : Int)) ∧
    givesFlags (.cmpi a imm7) s (signed (s.reg a).toNat - imm7.toInt) ∧
    givesFlags (.cmpiu a imm7) s (((s.reg a).toNat : Int) - (imm7.toNat : Int))

/-- A BRn right after a compare is taken exactly when the first operand is below the second, as a signed
number after CMP and as an unsigned one after CMPU (R252; D10, log 13). -/
def Obligations.BranchAfterCompareTestsTheOrder : Prop :=
  ∀ (s t u : State) (a b : Reg) (imm9 : BitVec 9), exec (.brn imm9) t = .next u →
    (exec (.cmp a b) s = .next t →
      u.pc = if signed (s.reg a).toNat < signed (s.reg b).toNat
        then t.pc + 1#16 + imm9.signExtend 16 else t.pc + 1#16) ∧
    (exec (.cmpu a b) s = .next t →
      u.pc = if (s.reg a).toNat < (s.reg b).toNat
        then t.pc + 1#16 + imm9.signExtend 16 else t.pc + 1#16)

/-- LDR (R150, R151): its words (D7, log 7); the address is base + IMM6 modulo 65536; a legal load copies the word into x[d] and
takes the flags from it, with everything else unchanged; an illegal one only latches the fault (D15, D16; log 11). -/
def Obligations.LdrLoadsTheWordAtItsAddress : Prop :=
  rowDecodes 0xF000#16 0x6000#16
    (fun w => .ldr (w.extractLsb' 9 3) (w.extractLsb' 6 3) (w.extractLsb' 0 6)) ∧
  ∀ (s : State) (d b : Reg) (imm6 : BitVec 6),
    (effectiveAddress (s.reg b) imm6).toNat =
      ((((s.reg b).toNat : Int) + imm6.toInt) % 65536).toNat ∧
    (dataLegal s (effectiveAddress (s.reg b) imm6) →
      givesNumber (.ldr d b imm6) s d (s.word (effectiveAddress (s.reg b) imm6)).toNat) ∧
    (¬ dataLegal s (effectiveAddress (s.reg b) imm6) →
      ∃ t c, exec (.ldr d b imm6) s = .next t ∧
        violation s (effectiveAddress (s.reg b) imm6) c ∧
        latchesOnly s t (dataRecord s c .load (effectiveAddress (s.reg b) imm6)))

/-- STR (R150, R152): its words, the register stored in I[11:9] (D7, log 7); a legal store puts x[r] at its effective address and changes nothing else but pc: no
register, no flag, no other word; an illegal one only latches the fault (D15, D16; log 11). -/
def Obligations.StrStoresTheRegisterAtItsAddress : Prop :=
  rowDecodes 0xF000#16 0x7000#16
    (fun w => .str (w.extractLsb' 9 3) (w.extractLsb' 6 3) (w.extractLsb' 0 6)) ∧
  ∀ (s : State) (r b : Reg) (imm6 : BitVec 6),
    (dataLegal s (effectiveAddress (s.reg b) imm6) →
      ∃ t, exec (.str r b imm6) s = .next t ∧
        t.word (effectiveAddress (s.reg b) imm6) = s.reg r ∧
        (∀ a : Word, a ≠ effectiveAddress (s.reg b) imm6 → t.word a = s.word a) ∧
        sameRegs s t ∧ t.psr = s.psr ∧ pcPlusOne s t ∧ sameLatch s t) ∧
    (¬ dataLegal s (effectiveAddress (s.reg b) imm6) →
      ∃ t c, exec (.str r b imm6) s = .next t ∧
        violation s (effectiveAddress (s.reg b) imm6) c ∧
        latchesOnly s t (dataRecord s c .store (effectiveAddress (s.reg b) imm6)))

/-- CONST (R160): the signed IMM9, -256 to 255, modulo 65536, in every state. -/
def Obligations.ConstSetsItsSignedImmediate : Prop :=
  rowDecodes 0xF000#16 0x9000#16 (fun w => .const (w.extractLsb' 9 3) (w.extractLsb' 0 9)) ∧
  ∀ (s : State) (d : Reg) (imm9 : BitVec 9),
    -256 ≤ imm9.toInt ∧ imm9.toInt ≤ 255 ∧
      givesNumber (.const d imm9) s d (imm9.toInt % 65536).toNat

/-- HICONST (R161): UIMM8 in the upper byte with the lower byte kept, in every state; with I[8] = 0 the word
is not HICONST and raises IllegalInstruction, which is the spec's D5 (log 9). -/
def Obligations.HiconstReplacesTheUpperByte : Prop :=
  rowDecodes 0xF100#16 0xD100#16 (fun w => .hiconst (w.extractLsb' 9 3) (w.extractLsb' 0 8)) ∧
  rowDecodes 0xF100#16 0xD000#16 (fun w => .illegal1101 w) ∧
  (∀ (s : State) (w : Word), ∃ t r, exec (.illegal1101 w) s = .next t ∧ t.fault = some r ∧
    r.cause = .illegalInstruction) ∧
  ∀ (s : State) (d : Reg) (uimm8 : BitVec 8),
    givesNumber (.hiconst d uimm8) s d (uimm8.toNat * 256 + (s.reg d).toNat % 256)

/-- CONST then HICONST loads any 16-bit constant {hi, lo}, whatever bit 8 of CONST's field. -/
def Obligations.ConstThenHiconstLoadsAnyWord : Prop :=
  ∀ (s : State) (d : Reg) (imm9 : BitVec 9) (hi : BitVec 8),
    ∃ t u, exec (.const d imm9) s = .next t ∧ exec (.hiconst d hi) t = .next u ∧
      u.reg d = hi ++ imm9.extractLsb' 0 8 ∧ sameRegsBut d s u ∧
      u.pc = s.pc + 2#16

/-- SLL, SRA, SRL (R170 to R172): times 2^u modulo 65536; the floor of the signed, and of the unsigned,
quotient by 2^u. -/
def Obligations.ShiftsMultiplyAndDivideByPowersOfTwo : Prop :=
  rowDecodes 0xF030#16 0xA000#16
    (fun w => .sll (w.extractLsb' 9 3) (w.extractLsb' 6 3) (w.extractLsb' 0 4)) ∧
  rowDecodes 0xF030#16 0xA010#16
    (fun w => .sra (w.extractLsb' 9 3) (w.extractLsb' 6 3) (w.extractLsb' 0 4)) ∧
  rowDecodes 0xF030#16 0xA020#16
    (fun w => .srl (w.extractLsb' 9 3) (w.extractLsb' 6 3) (w.extractLsb' 0 4)) ∧
  ∀ (s : State) (d a : Reg) (u : BitVec 4),
    givesNumber (.sll d a u) s d ((s.reg a).toNat * 2 ^ u.toNat % 65536) ∧
    givesNumber (.sra d a u) s d ((signed (s.reg a).toNat / 2 ^ u.toNat) % 65536).toNat ∧
    givesNumber (.srl d a u) s d ((s.reg a).toNat / 2 ^ u.toNat)

/-- AND, OR, XOR, ANDI (R180, R182, R183, R184): bit by bit, ANDI with the sign of IMM5 in bits 15:5. -/
def Obligations.LogicalResultsAreBitwise : Prop :=
  rowDecodes 0xF038#16 0x5000#16
    (fun w => .and (w.extractLsb' 9 3) (w.extractLsb' 6 3) (w.extractLsb' 0 3)) ∧
  rowDecodes 0xF038#16 0x5010#16
    (fun w => .or (w.extractLsb' 9 3) (w.extractLsb' 6 3) (w.extractLsb' 0 3)) ∧
  rowDecodes 0xF038#16 0x5018#16
    (fun w => .xor (w.extractLsb' 9 3) (w.extractLsb' 6 3) (w.extractLsb' 0 3)) ∧
  rowDecodes 0xF020#16 0x5020#16
    (fun w => .andi (w.extractLsb' 9 3) (w.extractLsb' 6 3) (w.extractLsb' 0 5)) ∧
  ∀ (s : State) (d a b : Reg) (imm5 : BitVec 5),
    givesBits (.and d a b) s d (fun k => (s.reg a).getLsbD k && (s.reg b).getLsbD k) ∧
    givesBits (.or d a b) s d (fun k => (s.reg a).getLsbD k || (s.reg b).getLsbD k) ∧
    givesBits (.xor d a b) s d (fun k => Bool.xor ((s.reg a).getLsbD k) ((s.reg b).getLsbD k)) ∧
    givesBits (.andi d a imm5) s d
      (fun k => (s.reg a).getLsbD k && (if k < 5 then imm5.getLsbD k else imm5.getLsbD 4))

/-- NOT (R181): every bit inverted, so the signed reading becomes -v - 1; the t field is ignored (D6,
log 8). -/
def Obligations.NotInvertsEveryBit : Prop :=
  rowDecodes 0xF038#16 0x5008#16 (fun w => .not (w.extractLsb' 9 3) (w.extractLsb' 6 3)) ∧
  ∀ (s : State) (d a : Reg),
    givesBits (.not d a) s d (fun k => !(s.reg a).getLsbD k) ∧
    givesNumber (.not d a) s d ((- signed (s.reg a).toNat - 1) % 65536).toNat

/-- JMPR and JMP (R190, R191): pc becomes x[s], or pc + 1 + IMM11 modulo 65536; nothing else changes. -/
def Obligations.JumpsChangeOnlyPc : Prop :=
  rowDecodes 0xF800#16 0xC000#16 (fun w => .jmpr (w.extractLsb' 6 3)) ∧
  rowDecodes 0xF800#16 0xC800#16 (fun w => .jmp (w.extractLsb' 0 11)) ∧
  ∀ (s : State) (a : Reg) (imm11 : BitVec 11),
    movesPc (.jmpr a) s (s.reg a).toNat ∧
    movesPc (.jmp imm11) s (((s.pc.toNat : Int) + 1 + imm11.toInt) % 65536).toNat

/-- JSR (R193): its words (D7, log 7), the link, the mode kept, and the target: IMM11 * 16 in the half of memory of pc. The target
formula is the spec's D11 (log 14). -/
def Obligations.JsrLinksAndGoesToItsAlignedTarget : Prop :=
  rowDecodes 0xF800#16 0x4800#16
    (fun w => .jsr (w.extractLsb' 0 11)) ∧
  ∀ (s : State) (imm11 : BitVec 11),
    ∃ t, exec (.jsr imm11) s = .next t ∧ linksR7 s t ∧
      t.psr.getLsbD 15 = s.psr.getLsbD 15 ∧
      t.pc.toNat = (if 32768 ≤ s.pc.toNat then 32768 else 0) + imm11.toNat * 16

/-- JSRR (R192): its words, I[10:9] and I[5:0] ignored (D6, D7; logs 8, 7), the link, the mode kept, and the target x[s] as it was, but for JSRR R7 under
`LinkBeforeRead`, which falls through to pc + 1. The parameter is the spec's D14 (log 6). -/
def Obligations.JsrrLinksAndGoesToItsRegister : Prop :=
  rowDecodes 0xF800#16 0x4000#16
    (fun w => .jsrr (w.extractLsb' 6 3)) ∧
  ∀ (s : State) (a : Reg),
    ∃ t, exec (.jsrr a) s = .next t ∧ linksR7 s t ∧
      t.psr.getLsbD 15 = s.psr.getLsbD 15 ∧
      (a ≠ 7#3 ∨ s.params.jsrrLinkOrder = .readBeforeLink → t.pc = s.reg a) ∧
      (a = 7#3 → s.params.jsrrLinkOrder = .linkBeforeRead →
        t.pc.toNat = (s.pc.toNat + 1) % 65536)

/-- TRAP (R194, R207): its words, I[11:8] ignored (D6, D7; logs 8, 7), the link, supervisor mode, and pc at 0x8000 + UIMM8, in both modes. The base is the
spec's D12 and the flags its D13 (log 15). -/
def Obligations.TrapEntersTheSupervisor : Prop :=
  rowDecodes 0xF000#16 0xF000#16
    (fun w => .trap (w.extractLsb' 0 8)) ∧
  ∀ (s : State) (uimm8 : BitVec 8),
    ∃ t, exec (.trap uimm8) s = .next t ∧ linksR7 s t ∧ supervisor t ∧
      t.pc.toNat = 32768 + uimm8.toNat

/-- RTI (R195, R209): its words, I[11:0] ignored (D6, D7; logs 8, 7), pc from R7, user mode, PSR bits 14:0 and all else unchanged, in both modes. That it is
not privileged is the spec's D26 (log 16). -/
def Obligations.RtiReturnsToUserMode : Prop :=
  rowDecodes 0xF000#16 0x8000#16 (fun _ => .rti) ∧
  ∀ s : State,
    ∃ t, exec .rti s = .next t ∧ t.pc = s.reg 7#3 ∧ ¬ supervisor t ∧
      (∀ k : Nat, k < 15 → t.psr.getLsbD k = s.psr.getLsbD k) ∧
      sameRegs s t ∧ sameMemory s t ∧ sameLatch s t

/-- The trap round trip: an RTI in any later state that still holds the R7 which TRAP wrote returns to the
instruction after the TRAP, in user mode, whatever the mode the TRAP came from (R207, R209; D26, log 16). -/
def Obligations.RtiReturnsPastTheTrap : Prop :=
  ∀ (s t h u : State) (uimm8 : BitVec 8), exec (.trap uimm8) s = .next t →
    h.reg 7#3 = t.reg 7#3 → exec .rti h = .next u →
    u.pc.toNat = (s.pc.toNat + 1) % 65536 ∧ ¬ supervisor u ∧
      (∀ k : Nat, k < 3 → u.psr.getLsbD k = h.psr.getLsbD k)

/-- The illegal words (R67) raise IllegalInstruction and change nothing else. That they fault is the spec's
D4 and D5 (log 9). -/
def Obligations.IllegalWordsRaiseIllegalInstruction : Prop :=
  rowDecodes 0xF000#16 0x3000#16 (fun w => .illegal0011 w) ∧
  rowDecodes 0xF000#16 0xB000#16 (fun w => .illegal1011 w) ∧
  rowDecodes 0xF000#16 0xE000#16 (fun w => .illegal1110 w) ∧
  rowDecodes 0xF100#16 0xD000#16 (fun w => .illegal1101 w) ∧
  ∀ (s : State) (w : Word) (i : Instr),
    i = .illegal0011 w ∨ i = .illegal1011 w ∨ i = .illegal1110 w ∨ i = .illegal1101 w →
    ∃ t, exec i s = .next t ∧
      latchesOnly s t
        { cause := .illegalInstruction, kind := .decode, pc := s.pc, addr := s.pc, insn := some w }

/-! ## The host's boundary -/

/-- The commit record of a step that commits tells exactly what the step wrote (R108, R109): the register and
the flags exactly for the instructions that R23 and R107 list, the address and word of LDR and STR, and 0 in
every field that does not apply. What a disabled field holds, and LDR's address and word, are the spec's D18,
when there is a record its D19 (log 19). -/
def Obligations.CommitRecordTellsWhatWasWritten : Prop :=
  ∀ s t : State, step s = .next t → t.fault = none →
    (output s).status = 0 ∧
    ∃ c, (output s).commit = some c ∧ c.pc = s.pc ∧ c.insn = s.word s.pc ∧
      c.regWe = (listedWrites (decode (s.word s.pc))).isSome ∧
      (c.regWe = true → listedWrites (decode (s.word s.pc)) = some c.regIdx ∧
        t.reg c.regIdx = c.regVal ∧ sameRegsBut c.regIdx s t) ∧
      (c.regWe = false → sameRegs s t ∧ c.regIdx = 0#3 ∧ c.regVal = 0#16) ∧
      c.nzpWe = listedFlags (decode (s.word s.pc)) ∧
      (c.nzpWe = true → nzpOf t.psr = c.nzpVal ∧ oneFlag c.nzpVal) ∧
      (c.nzpWe = false → nzpOf t.psr = nzpOf s.psr ∧ c.nzpVal = 0#3) ∧
      (c.dataWe = true → t.word c.dataAddr = c.dataVal ∧
        ∀ a : Word, a ≠ c.dataAddr → t.word a = s.word a) ∧
      (c.dataWe = false → sameMemory s t) ∧
      (∀ d b imm6, decode (s.word s.pc) = .ldr d b imm6 →
        c.dataWe = false ∧ c.dataAddr = effectiveAddress (s.reg b) imm6 ∧
          c.dataVal = s.word (effectiveAddress (s.reg b) imm6)) ∧
      (∀ r b imm6, decode (s.word s.pc) = .str r b imm6 →
        c.dataWe = true ∧ c.dataAddr = effectiveAddress (s.reg b) imm6 ∧ c.dataVal = s.reg r) ∧
      ((¬ ∃ d b imm6, decode (s.word s.pc) = .ldr d b imm6) →
        (¬ ∃ r b imm6, decode (s.word s.pc) = .str r b imm6) →
        c.dataWe = false ∧ c.dataAddr = 0#16 ∧ c.dataVal = 0#16)

/-- A code or data section (R234, R235), big-endian (R233), of fewer than 65536 words is copied to
consecutive addresses modulo 65536, and no other word changes; the load succeeds with no warning. -/
def Obligations.LoadedSectionReadsBack : Prop :=
  ∀ (m : Memory) (tag start : Word) (words : List Word),
    tag = 0xCADE#16 ∨ tag = 0xDADA#16 → words.length < 65536 →
    (loadFile m (wordSection tag start words)).ok = true ∧
    (loadFile m (wordSection tag start words)).warnings = [] ∧
    (∀ (k : Nat) (hk : k < words.length),
      Memory.read (loadFile m (wordSection tag start words)).mem (start + BitVec.ofNat 16 k) =
        words[k]) ∧
    (∀ a : Word, (∀ k, k < words.length → a ≠ start + BitVec.ofNat 16 k) →
      Memory.read (loadFile m (wordSection tag start words)).mem a = Memory.read m a)

/-- The symbol-table, file-name and line-number sections (R236 to R238) are read and discarded: loading goes
on with what follows them, with memory unchanged. -/
def Obligations.DebugSectionsAreDiscarded : Prop :=
  ∀ (m : Memory) (start f1 f2 f3 : Word) (bytes rest : List FileByte), bytes.length < 65536 →
    loadFile m (fileBytes 0xC3B7#16 ++ fileBytes start ++
        fileBytes (BitVec.ofNat 16 bytes.length) ++ bytes ++ rest) = loadFile m rest ∧
    loadFile m (fileBytes 0xF17E#16 ++ fileBytes (BitVec.ofNat 16 bytes.length) ++ bytes ++
        rest) = loadFile m rest ∧
    loadFile m (fileBytes 0x715E#16 ++ fileBytes f1 ++ fileBytes f2 ++ fileBytes f3 ++ rest) =
      loadFile m rest

/-- The host's loop (R244) and how a run ends (R247). One turn: at HALT_PC the run is halted, and the
instruction there not executed; away from it, a step that commits puts its record first and the loop goes on
from the state it leaves, and a step that faults ends the run, faulted, in the state with the record latched.
A whole run: its records are the outputs of the committed steps from the first state on, in order, and it
ends halted at HALT_PC, faulted with the record latched, or cancelled when the steps are used up. HALT_PC and
the check before the fetch are the spec's D3 and D24 (log 4), the latch its D17 (log 10), the step limit the
model's (log 23). -/
def Obligations.RunsEndHaltedOrFaulted : Prop :=
  ∀ (n : Nat) (s : State),
    (s.pc = s.params.haltPc →
      runLoop n s = { ending := .halted, state := s, records := [] }) ∧
    (s.pc ≠ s.params.haltPc →
      runLoop 0 s = { ending := .cancelled, state := s, records := [] } ∧
      (∀ t, step s = .next t → t.fault = none →
        ∃ c, (output s).commit = some c ∧
          runLoop (n + 1) s =
            { ending := (runLoop n t).ending
              state := (runLoop n t).state
              records := c :: (runLoop n t).records }) ∧
      (∀ t r, step s = .next t → t.fault = some r →
        runLoop (n + 1) s = { ending := .faulted r, state := t, records := [] }) ∧
      (∀ r, s.fault = some r →
        runLoop (n + 1) s = { ending := .faulted r, state := s, records := [] })) ∧
    (∃ u, commitsAlong s (runLoop n s).records u ∧ runEnds n (runLoop n s) u) ∧
    (s.fault = none → (runLoop n s).ending = .halted → (runLoop n s).state.fault = none) ∧
    (runLoop n s).records.length ≤ n

/-- The word 0x0000 executes as a no-op whose trace line has, after PC and INSTRUCTION, the fixed
placeholder 0 0 0000 0 0 0 0000 0000 (R246; D28, log 22). -/
def Obligations.ZeroWordLeavesThePlaceholderLine : Prop :=
  ∀ s : State, s.fault = none → fetchLegal s s.pc → s.word s.pc = 0#16 →
    ∃ c, (output s).commit = some c ∧
      (traceFields c).drop 2 =
        [['0'], ['0'], ['0', '0', '0', '0'], ['0'], ['0'], ['0'], ['0', '0', '0', '0'],
          ['0', '0', '0', '0']] ∧
      movesPc (decode (s.word s.pc)) s ((s.pc.toNat + 1) % 65536)

/-- A label's field takes control to the label (R71): BR and JMP by the distance from pc + 1, JSR by L[14:4]
within its half of memory; every offset field is some label's; and LC loads its constant (R72). The notation
is the spec's D22 (log 28), the JSR target its D11 (log 14). -/
def Obligations.LabelsReachTheirTargets : Prop :=
  (∀ (s : State) (l : Word) (f : BitVec 9), labelOffset 9 s.pc l = some f →
    nzpOf s.psr ≠ 0#3 → movesPc (.brnzp f) s l.toNat) ∧
  (∀ (s : State) (l : Word) (f : BitVec 11), labelOffset 11 s.pc l = some f →
    movesPc (.jmp f) s l.toNat) ∧
  (∀ (pc : Word) (f : BitVec 9) (g : BitVec 11),
    labelOffset 9 pc (pc + 1#16 + f.signExtend 16) = some f ∧
    labelOffset 11 pc (pc + 1#16 + g.signExtend 16) = some g) ∧
  (∀ (s t : State) (l : Word) (f : BitVec 11), subroutineField l = some f →
    l.getLsbD 15 = s.pc.getLsbD 15 → exec (.jsr f) s = .next t → t.pc = l) ∧
  ∀ (s : State) (d : Reg) (v : Word), ∃ i j t u, loadConstant d v = [i, j] ∧
    exec i s = .next t ∧ exec j t = .next u ∧ u.reg d = v
end

