-- ==== Sys2Proof/Laws/Flags.lean ====
section
/-! SUPPORT. The condition codes, and the fields of the PSR after each write to it. -/

namespace Sys2Proof.Machine

theorem withNzp_getLsbD (psr : Word) (c : Nzp) (i : Nat) :
    (withNzp psr c).getLsbD i = if i < 3 then c.getLsbD i else psr.getLsbD i := by
  by_cases h16 : i < 16
  · unfold withNzp
    simp only [BitVec.getLsbD_or, BitVec.getLsbD_and, BitVec.getLsbD_setWidth, h16, decide_true,
      Bool.true_and]
    interval_cases i <;> simp
  · rw [if_neg (by omega), BitVec.getLsbD_of_ge _ _ (by omega), BitVec.getLsbD_of_ge _ _ (by omega)]

theorem withPriv_getLsbD (psr : Word) (p : Bool) (i : Nat) :
    (withPriv psr p).getLsbD i = if i = 15 then p else psr.getLsbD i := by
  by_cases h16 : i < 16
  · cases p <;> simp only [withPriv, if_true, if_false, Bool.false_eq_true, BitVec.getLsbD_or,
      BitVec.getLsbD_and] <;> interval_cases i <;> simp
  · rw [if_neg (by omega), BitVec.getLsbD_of_ge _ _ (by omega), BitVec.getLsbD_of_ge _ _ (by omega)]

@[simp] theorem nzpOf_withNzp (psr : Word) (c : Nzp) : nzpOf (withNzp psr c) = c := by
  apply BitVec.eq_of_getLsbD_eq
  intro i hi
  simp [nzpOf, withNzp_getLsbD, hi]

@[simp] theorem privOf_withNzp (psr : Word) (c : Nzp) : privOf (withNzp psr c) = privOf psr := by
  unfold privOf
  rw [withNzp_getLsbD, if_neg (by omega)]

@[simp] theorem reservedOf_withNzp (psr : Word) (c : Nzp) :
    reservedOf (withNzp psr c) = reservedOf psr := by
  apply BitVec.eq_of_getLsbD_eq
  intro i hi
  simp [reservedOf, withNzp_getLsbD]

@[simp] theorem nzpOf_withPriv (psr : Word) (p : Bool) : nzpOf (withPriv psr p) = nzpOf psr := by
  apply BitVec.eq_of_getLsbD_eq
  intro i hi
  have h : i ≠ 15 := by omega
  simp [nzpOf, withPriv_getLsbD, h]

@[simp] theorem privOf_withPriv (psr : Word) (p : Bool) : privOf (withPriv psr p) = p := by
  unfold privOf
  rw [withPriv_getLsbD, if_pos rfl]

@[simp] theorem reservedOf_withPriv (psr : Word) (p : Bool) :
    reservedOf (withPriv psr p) = reservedOf psr := by
  apply BitVec.eq_of_getLsbD_eq
  intro i hi
  have h : 3 + i ≠ 15 := by omega
  simp [reservedOf, withPriv_getLsbD, h]

/-- The three fields are all of the PSR. -/
theorem psr_ext {p q : Word} (hp : privOf p = privOf q) (hr : reservedOf p = reservedOf q)
    (hn : nzpOf p = nzpOf q) : p = q := by
  apply BitVec.eq_of_getLsbD_eq
  intro i hi
  by_cases h3 : i < 3
  · have := congrArg (fun v => v.getLsbD i) hn
    simpa [nzpOf, h3] using this
  · by_cases h15 : i = 15
    · subst h15
      exact hp
    · have := congrArg (fun v => v.getLsbD (i - 3)) hr
      have h12 : i - 3 < 12 := by omega
      have hi3 : 3 + (i - 3) = i := by omega
      simpa [reservedOf, h12, hi3] using this

theorem cc_neg {n : Int} (h : n < 0) : cc n = 0b100#3 := by simp [cc, h]

theorem cc_zero : cc 0 = 0b010#3 := rfl

theorem cc_pos {n : Int} (h : 0 < n) : cc n = 0b001#3 := by
  have h1 : ¬ n < 0 := by omega
  have h2 : n ≠ 0 := by omega
  simp [cc, h1, h2]

/-- After `setcc` exactly one flag is set. -/
theorem cc_one (n : Int) : cc n = 0b100#3 ∨ cc n = 0b010#3 ∨ cc n = 0b001#3 := by
  rcases lt_trichotomy n 0 with h | h | h
  · exact .inl (cc_neg h)
  · exact .inr (.inl (h ▸ cc_zero))
  · exact .inr (.inr (cc_pos h))

end Sys2Proof.Machine
end

