-- ==== Sys2Proof/Laws/Memory.lean ====
section
/-! SUPPORT. Memory: read after write, and that a write keeps the canonical form. -/

namespace Sys2Proof.Machine

theorem Memory.lookup_of_all_ne (m : Memory) (a : Nat) (h : ∀ c ∈ m, c.1 ≠ a) :
    Memory.lookup m a = unlistedWord := by
  induction m with
  | nil => rfl
  | cons c rest ih =>
    obtain ⟨b, x⟩ := c
    have hb : b ≠ a := h (b, x) (by simp)
    simp only [Memory.lookup, hb, if_false]
    exact ih (fun c hc => h c (by simp [hc]))

theorem Memory.lookup_filter_ne (m : Memory) (a c : Nat) (h : c ≠ a) :
    Memory.lookup (m.filter (fun e => e.1 ≠ a)) c = Memory.lookup m c := by
  induction m with
  | nil => rfl
  | cons e rest ih =>
    obtain ⟨b, x⟩ := e
    by_cases hb : b = a
    · subst hb
      simp [Memory.lookup, Ne.symm h] at ih ⊢
      exact ih
    · simp [Memory.lookup, hb] at ih ⊢
      rw [ih]

/-- A word written reads back. -/
theorem Memory.lookup_store_same (m : Memory) (a : Nat) (v : Word) :
    Memory.lookup (Memory.store m a v) a = v := by
  induction m with
  | nil => by_cases hv : v = unlistedWord <;> simp [Memory.store, Memory.lookup, hv]
  | cons e rest ih =>
    obtain ⟨b, x⟩ := e
    by_cases hlt : b < a
    · have hne : b ≠ a := by omega
      simp [Memory.store, hlt, Memory.lookup, hne, ih]
    · by_cases hv : v = unlistedWord
      · simp only [Memory.store, hlt, if_false, hv, if_true]
        exact Memory.lookup_of_all_ne _ _ (by simp)
      · simp [Memory.store, hlt, hv, Memory.lookup]

/-- A write leaves every other word alone. -/
theorem Memory.lookup_store_other (m : Memory) (a c : Nat) (v : Word) (h : c ≠ a) :
    Memory.lookup (Memory.store m a v) c = Memory.lookup m c := by
  induction m with
  | nil => by_cases hv : v = unlistedWord <;> simp [Memory.store, Memory.lookup, hv, Ne.symm h]
  | cons e rest ih =>
    obtain ⟨b, x⟩ := e
    by_cases hlt : b < a
    · simp [Memory.store, hlt, Memory.lookup, ih]
    · by_cases hv : v = unlistedWord
      · simp only [Memory.store, hlt, if_false, hv, if_true]
        exact Memory.lookup_filter_ne _ _ _ h
      · simp only [Memory.store, hlt, if_false, hv]
        rw [Memory.lookup, if_neg (Ne.symm h)]
        exact Memory.lookup_filter_ne _ _ _ h

theorem toNat_ne {a c : Word} (h : c ≠ a) : c.toNat ≠ a.toNat := fun e => h (BitVec.eq_of_toNat_eq e)

@[simp] theorem Memory.read_write_same (m : Memory) (a v : Word) :
    Memory.read (Memory.write m a v) a = v := Memory.lookup_store_same m a.toNat v

theorem Memory.read_write_other (m : Memory) (a c v : Word) (h : c ≠ a) :
    Memory.read (Memory.write m a v) c = Memory.read m c :=
  Memory.lookup_store_other m a.toNat c.toNat v (toNat_ne h)

@[simp] theorem Memory.read_empty (a : Word) : Memory.read [] a = unlistedWord := rfl

/-- A store lists only what was listed, and the word stored. -/
theorem Memory.mem_store {m : Memory} {a : Nat} {v : Word} {c : Cell} (h : c ∈ Memory.store m a v) :
    c ∈ m ∨ (c = (a, v) ∧ v ≠ unlistedWord) := by
  induction m with
  | nil =>
    by_cases hv : v = unlistedWord
    · simp [Memory.store, hv] at h
    · simp [Memory.store, hv] at h
      exact .inr ⟨h, hv⟩
  | cons e rest ih =>
    obtain ⟨b, x⟩ := e
    by_cases hlt : b < a
    · simp only [Memory.store, hlt, if_true, List.mem_cons] at h
      rcases h with h | h
      · exact .inl (by simp [h])
      · rcases ih h with h | h
        · exact .inl (by simp [h])
        · exact .inr h
    · by_cases hv : v = unlistedWord
      · simp only [Memory.store, hlt, if_false, hv, if_true] at h
        exact .inl (List.mem_of_mem_filter h)
      · simp only [Memory.store, hlt, if_false, hv] at h
        rcases List.mem_cons.mp h with h | h
        · exact .inr ⟨h, hv⟩
        · exact .inl (List.mem_of_mem_filter h)

theorem Memory.store_sorted {m : Memory} {a : Nat} {v : Word}
    (h : m.Pairwise (fun c d => c.1 < d.1)) :
    (Memory.store m a v).Pairwise (fun c d => c.1 < d.1) := by
  induction m with
  | nil => by_cases hv : v = unlistedWord <;> simp [Memory.store, hv]
  | cons e rest ih =>
    obtain ⟨b, x⟩ := e
    have hhead : ∀ c ∈ rest, b < c.1 := fun c hc => List.rel_of_pairwise_cons h hc
    have htail := h.of_cons
    by_cases hlt : b < a
    · simp only [Memory.store, hlt, if_true]
      refine List.pairwise_cons.mpr ⟨fun c hc => ?_, ih htail⟩
      rcases Memory.mem_store hc with hc | ⟨hc, -⟩
      · exact hhead c hc
      · simp [hc, hlt]
    · have hfilter : (((b, x) :: rest).filter (fun c => c.1 ≠ a)).Pairwise (fun c d => c.1 < d.1) :=
        h.filter _
      by_cases hv : v = unlistedWord
      · simpa only [Memory.store, hlt, if_false, hv, if_true] using hfilter
      · simp only [Memory.store, hlt, if_false, hv]
        refine List.pairwise_cons.mpr ⟨fun c hc => ?_, hfilter⟩
        have hmem : c ∈ (b, x) :: rest := List.mem_of_mem_filter hc
        have hne : c.1 ≠ a := by simpa using (List.mem_filter.mp hc).2
        rcases List.mem_cons.mp hmem with hc | hc
        · subst hc
          show a < b
          have : b ≠ a := hne
          omega
        · have := hhead c hc
          show a < c.1
          omega

/-- Every write keeps the canonical form. -/
theorem Memory.write_wf {m : Memory} (a v : Word) (h : m.wf) : (Memory.write m a v).wf := by
  refine ⟨Memory.store_sorted h.1, fun c hc => ?_⟩
  rcases Memory.mem_store hc with hc | ⟨rfl, hv⟩
  · exact h.2 c hc
  · exact ⟨a.isLt, hv⟩

theorem Memory.empty_wf : Memory.wf [] := by simp [Memory.wf]

end Sys2Proof.Machine
end

