-- ==== Sys2Proof/Laws/Operands.lean ====
section
/-! SUPPORT. The readings of a word, and each ALU result, as a number. -/

namespace Sys2Proof.Machine

theorem u16_nonneg (v : Word) : 0 ≤ u16 v := Int.natCast_nonneg _

theorem u16_lt (v : Word) : u16 v < 65536 := by
  have h := v.isLt
  unfold u16
  omega

/-- `w16` is the residue modulo 65536. -/
theorem u16_w16 (n : Int) : u16 (w16 n) = n % 65536 := by
  have h : (0 : Int) ≤ n % 65536 := Int.emod_nonneg n (by omega)
  simp only [u16, w16, BitVec.toNat_ofInt]
  push_cast
  omega

theorem w16_toNat (n : Nat) : (w16 (n : Int)).toNat = n % 65536 := by
  have h := u16_w16 (n : Int)
  unfold u16 at h
  omega

theorem s16_eq (v : Word) : s16 v = if v.toNat < 32768 then u16 v else u16 v - 65536 := by
  unfold s16 u16
  rw [BitVec.toInt_eq_toNat_cond]
  split <;> split <;> omega

theorem w16_u16 (v : Word) : w16 (u16 v) = v := by
  apply BitVec.eq_of_toNat_eq
  have h := w16_toNat v.toNat
  have := v.isLt
  unfold u16
  rw [h]
  omega

theorem w16_s16 (v : Word) : w16 (s16 v) = v := by
  simp [w16, s16]

/-- A residue is the word: two integers with one residue give one word. -/
theorem w16_congr {m n : Int} (h : m % 65536 = n % 65536) : w16 m = w16 n := by
  apply BitVec.eq_of_toNat_eq
  have h1 := u16_w16 m
  have h2 := u16_w16 n
  unfold u16 at h1 h2
  omega

theorem following_toNat (pc : Word) : (following pc).toNat = (pc.toNat + 1) % 65536 := by
  have h := u16_w16 (u16 pc + 1)
  unfold following
  unfold u16 at h ⊢
  omega

theorem aluAdd_eq (a b : Word) : aluAdd a b = a + b := by
  apply BitVec.eq_of_toNat_eq
  have h := u16_w16 (u16 a + u16 b)
  unfold aluAdd
  unfold u16 at h ⊢
  rw [BitVec.toNat_add]
  omega

theorem aluMul_eq (a b : Word) : aluMul a b = a * b := by
  apply BitVec.eq_of_toNat_eq
  have h := w16_toNat (a.toNat * b.toNat)
  rw [BitVec.toNat_mul, ← h]
  simp [aluMul, u16]

theorem aluSub_eq (a b : Word) : aluSub a b = a - b := by
  apply BitVec.eq_of_toNat_eq
  have h := u16_w16 (u16 a - u16 b)
  have hb := b.isLt
  unfold aluSub
  unfold u16 at h ⊢
  rw [BitVec.toNat_sub]
  omega

theorem aluDiv_toNat (a b : Word) : (aluDiv a b).toNat = a.toNat / b.toNat := by
  have h := w16_toNat (a.toNat / b.toNat)
  have hlt : a.toNat / b.toNat < 65536 := Nat.lt_of_le_of_lt (Nat.div_le_self _ _) a.isLt
  have e : aluDiv a b = w16 ((a.toNat / b.toNat : Nat) : Int) := by simp [aluDiv, u16]
  rw [e, h]
  exact Nat.mod_eq_of_lt hlt

theorem aluMod_toNat (a b : Word) : (aluMod a b).toNat = a.toNat % b.toNat := by
  have h := w16_toNat (a.toNat % b.toNat)
  have hlt : a.toNat % b.toNat < 65536 := Nat.lt_of_le_of_lt (Nat.mod_le _ _) a.isLt
  have e : aluMod a b = w16 ((a.toNat % b.toNat : Nat) : Int) := by
    unfold aluMod u16
    push_cast
    rw [Int.emod_def]
  rw [e, h]
  exact Nat.mod_eq_of_lt hlt

theorem aluSll_toNat (v : Word) (u : BitVec 4) :
    (aluSll v u).toNat = v.toNat * 2 ^ u.toNat % 65536 := by
  have h := w16_toNat (v.toNat * 2 ^ u.toNat)
  rw [← h]
  simp [aluSll, u16]

theorem aluSrl_toNat (v : Word) (u : BitVec 4) : (aluSrl v u).toNat = v.toNat / 2 ^ u.toNat := by
  have h := w16_toNat (v.toNat / 2 ^ u.toNat)
  have hlt : v.toNat / 2 ^ u.toNat < 65536 := Nat.lt_of_le_of_lt (Nat.div_le_self _ _) v.isLt
  have e : aluSrl v u = w16 ((v.toNat / 2 ^ u.toNat : Nat) : Int) := by simp [aluSrl, u16]
  rw [e, h]
  exact Nat.mod_eq_of_lt hlt

end Sys2Proof.Machine
end

