-- ==== Sys2Proof/Laws/State.lean ====
section
/-! SUPPORT. One lemma per field of the state per update of it. -/

namespace Sys2Proof.Machine

@[simp] theorem State.commit_regs (σ : State) (w : Writes) : (σ.commit w).regs = w.regsOf σ.regs := rfl
@[simp] theorem State.commit_pc (σ : State) (w : Writes) : (σ.commit w).pc = w.pc := rfl
@[simp] theorem State.commit_psr (σ : State) (w : Writes) : (σ.commit w).psr = w.psrOf σ.psr := rfl
@[simp] theorem State.commit_mem (σ : State) (w : Writes) : (σ.commit w).mem = w.memOf σ.mem := rfl
@[simp] theorem State.commit_fault (σ : State) (w : Writes) : (σ.commit w).fault = σ.fault := rfl
@[simp] theorem State.commit_params (σ : State) (w : Writes) : (σ.commit w).params = σ.params := rfl

@[simp] theorem State.latch_regs (σ : State) (r : FaultRecord) : (σ.latch r).regs = σ.regs := rfl
@[simp] theorem State.latch_pc (σ : State) (r : FaultRecord) : (σ.latch r).pc = σ.pc := rfl
@[simp] theorem State.latch_psr (σ : State) (r : FaultRecord) : (σ.latch r).psr = σ.psr := rfl
@[simp] theorem State.latch_mem (σ : State) (r : FaultRecord) : (σ.latch r).mem = σ.mem := rfl
@[simp] theorem State.latch_fault (σ : State) (r : FaultRecord) : (σ.latch r).fault = some r := rfl
@[simp] theorem State.latch_params (σ : State) (r : FaultRecord) : (σ.latch r).params = σ.params := rfl

@[simp] theorem State.placeAtPc_regs (σ : State) (v : Word) : (σ.placeAtPc v).regs = σ.regs := rfl
@[simp] theorem State.placeAtPc_pc (σ : State) (v : Word) : (σ.placeAtPc v).pc = σ.pc := rfl
@[simp] theorem State.placeAtPc_psr (σ : State) (v : Word) : (σ.placeAtPc v).psr = σ.psr := rfl
@[simp] theorem State.placeAtPc_mem (σ : State) (v : Word) :
    (σ.placeAtPc v).mem = Memory.write σ.mem σ.pc v := rfl
@[simp] theorem State.placeAtPc_fault (σ : State) (v : Word) : (σ.placeAtPc v).fault = σ.fault := rfl
@[simp] theorem State.placeAtPc_params (σ : State) (v : Word) : (σ.placeAtPc v).params = σ.params := rfl

@[simp] theorem State.resetWith_regs (p : Params) :
    (State.resetWith p).regs = Vector.replicate 8 0x0000#16 := rfl
@[simp] theorem State.resetWith_pc (p : Params) : (State.resetWith p).pc = p.resetPc := rfl
@[simp] theorem State.resetWith_psr (p : Params) : (State.resetWith p).psr = 0x8001#16 := rfl
@[simp] theorem State.resetWith_mem (p : Params) : (State.resetWith p).mem = [] := rfl
@[simp] theorem State.resetWith_fault (p : Params) : (State.resetWith p).fault = none := rfl
@[simp] theorem State.resetWith_params (p : Params) : (State.resetWith p).params = p := rfl

end Sys2Proof.Machine
end

