-- ==== Sys2Proof/Laws/Ops.lean ====
section
/-! SUPPORT. Registers, the protection check, and what committing a set of writes does. -/

namespace Sys2Proof.Machine

/-! ## Registers -/

@[simp] theorem readReg_writeReg_same (regs : Vector Word 8) (r : Reg) (v : Word) :
    readReg (writeReg regs r v) r = v := by
  simp [readReg, writeReg]

theorem readReg_writeReg_other (regs : Vector Word 8) {q r : Reg} (v : Word) (h : q ≠ r) :
    readReg (writeReg regs r v) q = readReg regs q := by
  have hne : r.toNat ≠ q.toNat := fun e => h (BitVec.eq_of_toNat_eq e.symm)
  simp [readReg, writeReg, hne]

/-- Register files that read alike are equal. -/
theorem regs_ext {a b : Vector Word 8} (h : ∀ r : Reg, readReg a r = readReg b r) : a = b := by
  apply Vector.ext
  intro i hi
  have := h (BitVec.ofNat 3 i)
  have hmod : i % 8 = i := by omega
  simpa [readReg, hmod] using this

/-! ## The protection check (20_memory.md R43, R44, R45) -/

/-- A fetch is legal exactly in a code region, and in user mode exactly in UserCode (R43). -/
theorem checkAccess_fetch_none (m : MemMap) (sup : Bool) (a : Word) :
    checkAccess m sup .fetch a = none ↔
      classify m a = .userCode ∨ (sup = true ∧ classify m a = .osCode) := by
  cases h : classify m a <;> cases sup <;> simp [checkAccess, h, isOS, isCode]

/-- A load is legal exactly in a data region, and in user mode exactly in UserData (R44). -/
theorem checkAccess_load_none (m : MemMap) (sup : Bool) (a : Word) :
    checkAccess m sup .load a = none ↔
      classify m a = .userData ∨ (sup = true ∧ classify m a = .osData) := by
  cases h : classify m a <;> cases sup <;> simp [checkAccess, h, isOS, isData]

/-- A store is legal exactly where a load is (R44). -/
theorem checkAccess_store (m : MemMap) (sup : Bool) (a : Word) :
    checkAccess m sup .store a = checkAccess m sup .load a := rfl

/-! ## Committing writes -/

/-- A register after a commit: the value written, or what it was. -/
theorem commit_reg (σ : State) (w : Writes) (r : Reg) :
    (σ.commit w).reg r =
      match w.reg with
      | some (d, v) => if r = d then v else σ.reg r
      | none => σ.reg r := by
  unfold State.reg
  rw [State.commit_regs]
  unfold Writes.regsOf
  rcases w.reg with _ | ⟨d, v⟩
  · rfl
  · by_cases h : r = d
    · subst h
      simp
    · simp [h, readReg_writeReg_other]

/-- NZP after a commit. -/
theorem commit_nzp (σ : State) (w : Writes) :
    nzpOf (σ.commit w).psr = w.nzp.getD (nzpOf σ.psr) := by
  rw [State.commit_psr]
  unfold Writes.psrOf
  rcases w.nzp with _ | c <;> rcases w.priv with _ | p <;> simp

/-- PRIV after a commit. -/
theorem commit_priv (σ : State) (w : Writes) :
    privOf (σ.commit w).psr = w.priv.getD (privOf σ.psr) := by
  rw [State.commit_psr]
  unfold Writes.psrOf
  rcases w.nzp with _ | c <;> rcases w.priv with _ | p <;> simp

/-- PSR[14:3] is never written. -/
theorem commit_reserved (σ : State) (w : Writes) :
    reservedOf (σ.commit w).psr = reservedOf σ.psr := by
  rw [State.commit_psr]
  unfold Writes.psrOf
  rcases w.nzp with _ | c <;> rcases w.priv with _ | p <;> simp

/-- A word of memory after a commit: the word stored, or what it was. -/
theorem commit_word (σ : State) (w : Writes) (a : Word) :
    (σ.commit w).word a =
      match w.data with
      | some (.store b v) => if a = b then v else σ.word a
      | some (.load _ _) => σ.word a
      | none => σ.word a := by
  unfold State.word
  rw [State.commit_mem]
  unfold Writes.memOf
  rcases w.data with _ | ⟨b, v⟩ | ⟨b, v⟩
  · rfl
  · rfl
  · by_cases h : a = b
    · subst h
      simp
    · simp [h, Memory.read_write_other]

/-- A commit keeps memory's canonical form. -/
theorem commit_mem_wf (σ : State) (w : Writes) (h : σ.mem.wf) : (σ.commit w).mem.wf := by
  rw [State.commit_mem]
  unfold Writes.memOf
  rcases w.data with _ | ⟨b, v⟩ | ⟨b, v⟩
  · exact h
  · exact h
  · exact Memory.write_wf b v h

@[simp] theorem State.latch_reg (σ : State) (f : FaultRecord) (r : Reg) :
    (σ.latch f).reg r = σ.reg r := rfl

@[simp] theorem State.latch_word (σ : State) (f : FaultRecord) (a : Word) :
    (σ.latch f).word a = σ.word a := rfl

@[simp] theorem State.word_placeAtPc (σ : State) (v : Word) : (σ.placeAtPc v).word σ.pc = v :=
  Memory.read_write_same _ _ _

end Sys2Proof.Machine
end

