-- ==== Sys2Proof/Laws/Exec.lean ====
section
/-! SUPPORT. What `exec` and `step` can do: every instruction concludes its effect, so it answers a next
state, which commits a set of writes or latches a fault. -/

namespace Sys2Proof.Machine

theorem conclude_commits (σ : State) (w : Writes) : conclude σ (.commits w) = .next (σ.commit w) := rfl

theorem conclude_raises (σ : State) (r : FaultRecord) : conclude σ (.raises r) = .next (σ.latch r) := rfl

/-- `exec` is the conclusion of `effect`. -/
theorem exec_eq_conclude (i : Instr) (s : State) : exec i s = conclude s (effect i s) := by
  cases i <;> rfl

/-- Every instruction answers a next state. -/
theorem exec_next (i : Instr) (s : State) : ∃ t, exec i s = .next t := by
  rw [exec_eq_conclude]
  cases effect i s with
  | commits w => exact ⟨_, conclude_commits s w⟩
  | raises r => exact ⟨_, conclude_raises s r⟩

/-- What `exec` can do: commit the writes of its effect, or latch the fault it raises. -/
theorem exec_cases {i : Instr} {s t : State} (h : exec i s = .next t) :
    (∃ w, effect i s = .commits w ∧ t = s.commit w) ∨
      (∃ r, effect i s = .raises r ∧ t = s.latch r) := by
  rw [exec_eq_conclude] at h
  cases he : effect i s with
  | commits w =>
    rw [he, conclude_commits] at h
    injection h with h
    exact .inl ⟨w, rfl, h.symm⟩
  | raises r =>
    rw [he, conclude_raises] at h
    injection h with h
    exact .inr ⟨r, rfl, h.symm⟩

/-- What `step` can do when it answers a next state. -/
theorem step_cases {s t : State} (h : step s = .next t) :
    s.fault = none ∧
      ((∃ c, s.check .fetch s.pc = some c ∧ t = s.latch (accessFault s c .fetch s.pc)) ∨
        (s.check .fetch s.pc = none ∧
          ((∃ w, effect (decode s.insn) s = .commits w ∧ t = s.commit w) ∨
            (∃ r, effect (decode s.insn) s = .raises r ∧ t = s.latch r)))) := by
  unfold step at h
  cases hf : s.fault with
  | some r => simp [hf] at h
  | none =>
    refine ⟨rfl, ?_⟩
    cases hc : s.check .fetch s.pc with
    | some c =>
      simp only [hf, hc] at h
      injection h with h
      exact .inl ⟨c, rfl, h.symm⟩
    | none =>
      simp only [hf, hc] at h
      exact .inr ⟨rfl, exec_cases h⟩

/-- A legal fetch with no fault latched runs the decoded instruction. -/
theorem step_of_fetchable {s : State} (hf : s.fault = none) (hc : s.check .fetch s.pc = none) :
    step s = exec (decode s.insn) s := by
  simp [step, hf, hc]

end Sys2Proof.Machine
end

