-- ==== Sys2Proof/Laws/Effects.lean ====
section
/-! SUPPORT. Every instruction's effect, in two lemmas: what its writes can be when it commits, and what its
record can be when it raises. Over them an invariant of the step is a short case analysis. -/

namespace Sys2Proof.Machine

/-- What an effect's writes can be: flags only through `cc`; the mode by TRAP and RTI and no other; data by LDR and
STR and no other, at their effective address and after their check. -/
theorem effect_commits_cases {i : Instr} {σ : State} {w : Writes} (h : effect i σ = .commits w) :
    (∀ c, w.nzp = some c → ∃ n, c = cc n) ∧
    ((w.priv = none ∧ (∀ u, i ≠ .trap u) ∧ i ≠ .rti) ∨ (w.priv = some true ∧ ∃ u, i = .trap u) ∨
      (w.priv = some false ∧ i = .rti ∧ w.pc = σ.reg linkReg)) ∧
    ((w.data = none ∧ (∀ d b imm6, i ≠ .ldr d b imm6) ∧ ∀ t b imm6, i ≠ .str t b imm6) ∨
      (∃ d b imm6, i = .ldr d b imm6 ∧ σ.check .load (effectiveAddress (σ.reg b) imm6) = none ∧
        w.data = some (.load (effectiveAddress (σ.reg b) imm6)
          (σ.word (effectiveAddress (σ.reg b) imm6)))) ∨
      (∃ t b imm6, i = .str t b imm6 ∧ σ.check .store (effectiveAddress (σ.reg b) imm6) = none ∧
        w.data = some (.store (effectiveAddress (σ.reg b) imm6) (σ.reg t)))) := by
  cases i <;>
    simp only [effect, effNop, effBrp, effBrz, effBrzp, effBrn, effBrnp, effBrnz, effBrnzp, effAdd,
      effMul, effSub, effDiv, effAddi, effCmp, effCmpu, effCmpi, effCmpiu, effLdr, effStr, effConst,
      effHiconst, effSll, effSra, effSrl, effMod, effAnd, effOr, effNot, effXor, effAndi, effJmp,
      effJmpr, effJsr, effJsrr, effTrap, effRti, effIllegal0011, effIllegal1011, effIllegal1110,
      effIllegal1101, branch, divideInto, takeTrap, returnFromTrap, resultTo, flagsFrom, jumpTo,
      linkAndGo] at h <;>
    (try split at h) <;> (try split at h) <;> (try injection h with h) <;> (try subst h) <;>
    (try simp at h) <;> (try simp) <;> (try assumption)

/-- What an effect's record can be: never of a fetch; a load's or store's address is that instruction's
effective address; the word is the one at pc, or the one an illegal instruction carries. -/
theorem effect_raises_cases {i : Instr} {σ : State} {r : FaultRecord}
    (h : effect i σ = .raises r) :
    r.pc = σ.pc ∧ r.kind ≠ .fetch ∧ (r.kind = .decode ∨ r.kind = .execute → r.addr = σ.pc) ∧
    (r.kind = .load → ∃ d b imm6, i = .ldr d b imm6 ∧
      r.addr = effectiveAddress (σ.reg b) imm6) ∧
    (r.kind = .store → ∃ t b imm6, i = .str t b imm6 ∧
      r.addr = effectiveAddress (σ.reg b) imm6) ∧
    (r.insn = some σ.insn ∨ ∃ v, r.insn = some v ∧
      (i = .illegal0011 v ∨ i = .illegal1011 v ∨ i = .illegal1110 v ∨ i = .illegal1101 v)) := by
  cases i <;>
    simp only [effect, effNop, effBrp, effBrz, effBrzp, effBrn, effBrnp, effBrnz, effBrnzp, effAdd,
      effMul, effSub, effDiv, effAddi, effCmp, effCmpu, effCmpi, effCmpiu, effLdr, effStr, effConst,
      effHiconst, effSll, effSra, effSrl, effMod, effAnd, effOr, effNot, effXor, effAndi, effJmp,
      effJmpr, effJsr, effJsrr, effTrap, effRti, effIllegal0011, effIllegal1011, effIllegal1110,
      effIllegal1101, branch, divideInto, takeTrap, returnFromTrap, resultTo, flagsFrom, jumpTo,
      linkAndGo] at h <;>
    (try split at h) <;> (try split at h) <;> (try injection h with h) <;> (try subst h) <;>
    (try simp at h) <;> simp [divideFault, accessFault, illegalFault, Access.faultKind]

end Sys2Proof.Machine
end

