-- ==== Sys2Proof/Laws/Encode.lean ====
section
/-! SUPPORT. Each format of the encoder (30_encoding.md R62): the row's mask keeps the selector bits and clears
the operands. -/

namespace Sys2Proof

theorem encodeBr_selector (nzp : BitVec 3) (imm9 : BitVec 9) :
    encodeBr nzp imm9 &&& 0xFE00#16 = encodeBr nzp 0 := by
  apply BitVec.eq_of_getLsbD_eq
  intro k hk
  simp only [encodeBr, BitVec.getLsbD_and, BitVec.getLsbD_append]
  interval_cases k <;> simp

theorem encodeRRR_selector (op : BitVec 4) (sub : BitVec 2) (d s t : Reg) :
    encodeRRR op sub d s t &&& 0xF038#16 = encodeRRR op sub 0 0 0 := by
  apply BitVec.eq_of_getLsbD_eq
  intro k hk
  simp only [encodeRRR, BitVec.getLsbD_and, BitVec.getLsbD_append]
  interval_cases k <;> simp

theorem encodeRRI5_selector (op : BitVec 4) (d s : Reg) (imm5 : BitVec 5) :
    encodeRRI5 op d s imm5 &&& 0xF020#16 = encodeRRI5 op 0 0 0 := by
  apply BitVec.eq_of_getLsbD_eq
  intro k hk
  simp only [encodeRRI5, BitVec.getLsbD_and, BitVec.getLsbD_append]
  interval_cases k <;> simp

theorem encodeCmpR_selector (sub : BitVec 1) (s t : Reg) :
    encodeCmpR sub s t &&& 0xF180#16 = encodeCmpR sub 0 0 := by
  apply BitVec.eq_of_getLsbD_eq
  intro k hk
  simp only [encodeCmpR, BitVec.getLsbD_and, BitVec.getLsbD_append]
  interval_cases k <;> simp

theorem encodeCmpI_selector (sub : BitVec 1) (s : Reg) (imm7 : BitVec 7) :
    encodeCmpI sub s imm7 &&& 0xF180#16 = encodeCmpI sub 0 0 := by
  apply BitVec.eq_of_getLsbD_eq
  intro k hk
  simp only [encodeCmpI, BitVec.getLsbD_and, BitVec.getLsbD_append]
  interval_cases k <;> simp

theorem encodeJR_selector (op : BitVec 4) (s : Reg) :
    encodeJR op s &&& 0xF800#16 = encodeJR op 0 := by
  apply BitVec.eq_of_getLsbD_eq
  intro k hk
  simp only [encodeJR, BitVec.getLsbD_and, BitVec.getLsbD_append]
  interval_cases k <;> simp

theorem encodeJI_selector (op : BitVec 4) (imm11 : BitVec 11) :
    encodeJI op imm11 &&& 0xF800#16 = encodeJI op 0 := by
  apply BitVec.eq_of_getLsbD_eq
  intro k hk
  simp only [encodeJI, BitVec.getLsbD_and, BitVec.getLsbD_append]
  interval_cases k <;> simp

theorem encodeMem_selector (op : BitVec 4) (r s : Reg) (imm6 : BitVec 6) :
    encodeMem op r s imm6 &&& 0xF000#16 = encodeMem op 0 0 0 := by
  apply BitVec.eq_of_getLsbD_eq
  intro k hk
  simp only [encodeMem, BitVec.getLsbD_and, BitVec.getLsbD_append]
  interval_cases k <;> simp

theorem encodeShift_selector (sub : BitVec 2) (d s : Reg) (uimm4 : BitVec 4) :
    encodeShift sub d s uimm4 &&& 0xF030#16 = encodeShift sub 0 0 0 := by
  apply BitVec.eq_of_getLsbD_eq
  intro k hk
  simp only [encodeShift, BitVec.getLsbD_and, BitVec.getLsbD_append]
  interval_cases k <;> simp

end Sys2Proof
end

