-- ==== Sys2Proof/Laws/Output.lean ====
section
/-! SUPPORT. What a step outputs in each of the ways it can end, and one unfolding of the host's loop. -/

namespace Sys2Proof.Machine

/-- A step that commits the writes `w` outputs their record. -/
theorem output_of_commits {σ : State} {w : Writes} (hf : σ.fault = none)
    (hc : σ.check .fetch σ.pc = none) (he : effect (decode σ.insn) σ = .commits w) :
    output σ = { status := 0, commit := some (commitRecord σ w), imemAddr := some σ.pc, dmem := w.data } := by
  simp [output, hf, hc, he]

/-- A step whose instruction raises `r` outputs the cause and no record. -/
theorem output_of_raises {σ : State} {r : FaultRecord} (hf : σ.fault = none)
    (hc : σ.check .fetch σ.pc = none) (he : effect (decode σ.insn) σ = .raises r) :
    output σ =
      { status := r.cause.code, commit := none, imemAddr := some σ.pc, dmem := none } := by
  simp [output, hf, hc, he]

/-- A step whose fetch check fails outputs the cause, no record, and makes no access. -/
theorem output_of_fetch_fault {σ : State} {c : FaultCause} (hf : σ.fault = none)
    (hc : σ.check .fetch σ.pc = some c) :
    output σ = { status := c.code, commit := none, imemAddr := none, dmem := none } := by
  simp [output, hf, hc]

theorem step_of_latched {σ : State} {r : FaultRecord} (h : σ.fault = some r) :
    step σ = .fault (.stopped r) := by
  simp [step, h]

/-- A step that does not stop answers a next state: no instruction is refused. -/
theorem step_next {σ : State} (h : σ.fault = none) : ∃ τ, step σ = .next τ := by
  cases hc : σ.check .fetch σ.pc with
  | some c => exact ⟨σ.latch (accessFault σ c .fetch σ.pc), by simp only [step, h, hc]⟩
  | none =>
    rw [step_of_fetchable h hc]
    exact exec_next _ _

theorem runLoop_halted {σ : State} (h : σ.pc = σ.params.haltPc) (n : Nat) :
    runLoop n σ = { ending := .halted, state := σ, records := [] } := by
  unfold runLoop
  exact if_pos h

/-- The body of the loop, away from HALT_PC. -/
theorem runLoop_succ {σ : State} (h : σ.pc ≠ σ.params.haltPc) (n : Nat) :
    runLoop (n + 1) σ =
      match step σ with
      | .next τ =>
        match τ.fault with
        | some r => { ending := .faulted r, state := τ, records := [] }
        | none =>
          { runLoop n τ with records := (output σ).commit.toList ++ (runLoop n τ).records }
      | .fault (.stopped r) => { ending := .faulted r, state := σ, records := [] }
      | .refused _ => { ending := .cancelled, state := σ, records := [] } := by
  rw [runLoop]
  exact if_neg h

end Sys2Proof.Machine
end

