-- ==== Sys2Proof/Laws/PerInstr.lean ====
section
/-! SUPPORT. Family EncodeInRow: the word of a well-formed instruction lies in the instruction's row of
spec/opcode_table.json. One lemma a constructor. -/

namespace Sys2Proof.Laws.EncodeInRow

/-- The word of `i` has the match bits of its row under the row's mask. -/
def Statement (i : Instr) : Prop :=
  i.wellFormed = true → encode i &&& (rowOf i).1 = (rowOf i).2

theorem nop (imm9 : BitVec 9) : Statement (.nop imm9) :=
  fun _ => (encodeBr_selector _ _).trans rfl

theorem brp (imm9 : BitVec 9) : Statement (.brp imm9) :=
  fun _ => (encodeBr_selector _ _).trans rfl

theorem brz (imm9 : BitVec 9) : Statement (.brz imm9) :=
  fun _ => (encodeBr_selector _ _).trans rfl

theorem brzp (imm9 : BitVec 9) : Statement (.brzp imm9) :=
  fun _ => (encodeBr_selector _ _).trans rfl

theorem brn (imm9 : BitVec 9) : Statement (.brn imm9) :=
  fun _ => (encodeBr_selector _ _).trans rfl

theorem brnp (imm9 : BitVec 9) : Statement (.brnp imm9) :=
  fun _ => (encodeBr_selector _ _).trans rfl

theorem brnz (imm9 : BitVec 9) : Statement (.brnz imm9) :=
  fun _ => (encodeBr_selector _ _).trans rfl

theorem brnzp (imm9 : BitVec 9) : Statement (.brnzp imm9) :=
  fun _ => (encodeBr_selector _ _).trans rfl

theorem add (d s t : Reg) : Statement (.add d s t) :=
  fun _ => (encodeRRR_selector _ _ _ _ _).trans rfl

theorem mul (d s t : Reg) : Statement (.mul d s t) :=
  fun _ => (encodeRRR_selector _ _ _ _ _).trans rfl

theorem sub (d s t : Reg) : Statement (.sub d s t) :=
  fun _ => (encodeRRR_selector _ _ _ _ _).trans rfl

theorem div (d s t : Reg) : Statement (.div d s t) :=
  fun _ => (encodeRRR_selector _ _ _ _ _).trans rfl

theorem addi (d s : Reg) (imm5 : BitVec 5) : Statement (.addi d s imm5) :=
  fun _ => (encodeRRI5_selector _ _ _ _).trans rfl

theorem cmp (s t : Reg) : Statement (.cmp s t) :=
  fun _ => (encodeCmpR_selector _ _ _).trans rfl

theorem cmpu (s t : Reg) : Statement (.cmpu s t) :=
  fun _ => (encodeCmpR_selector _ _ _).trans rfl

theorem cmpi (s : Reg) (imm7 : BitVec 7) : Statement (.cmpi s imm7) :=
  fun _ => (encodeCmpI_selector _ _ _).trans rfl

theorem cmpiu (s : Reg) (uimm7 : BitVec 7) : Statement (.cmpiu s uimm7) :=
  fun _ => (encodeCmpI_selector _ _ _).trans rfl

theorem jsrr (s : Reg) : Statement (.jsrr s) :=
  fun _ => (encodeJR_selector _ _).trans rfl

theorem jsr (imm11 : BitVec 11) : Statement (.jsr imm11) :=
  fun _ => (encodeJI_selector _ _).trans rfl

theorem and (d s t : Reg) : Statement (.and d s t) :=
  fun _ => (encodeRRR_selector _ _ _ _ _).trans rfl

theorem not (d s : Reg) : Statement (.not d s) :=
  fun _ => (encodeRRR_selector _ _ _ _ _).trans rfl

theorem or (d s t : Reg) : Statement (.or d s t) :=
  fun _ => (encodeRRR_selector _ _ _ _ _).trans rfl

theorem xor (d s t : Reg) : Statement (.xor d s t) :=
  fun _ => (encodeRRR_selector _ _ _ _ _).trans rfl

theorem andi (d s : Reg) (imm5 : BitVec 5) : Statement (.andi d s imm5) :=
  fun _ => (encodeRRI5_selector _ _ _ _).trans rfl

theorem ldr (d s : Reg) (imm6 : BitVec 6) : Statement (.ldr d s imm6) :=
  fun _ => (encodeMem_selector _ _ _ _).trans rfl

theorem str (t s : Reg) (imm6 : BitVec 6) : Statement (.str t s imm6) :=
  fun _ => (encodeMem_selector _ _ _ _).trans rfl

theorem rti : Statement (.rti) := by
  intro _
  apply BitVec.eq_of_getLsbD_eq
  intro k hk
  simp only [encode, rowOf, rowIndex, opcodeTable, BitVec.getLsbD_and, BitVec.getLsbD_append]
  interval_cases k <;> simp

theorem const (d : Reg) (imm9 : BitVec 9) : Statement (.const d imm9) := by
  intro _
  apply BitVec.eq_of_getLsbD_eq
  intro k hk
  simp only [encode, rowOf, rowIndex, opcodeTable, BitVec.getLsbD_and, BitVec.getLsbD_append]
  interval_cases k <;> simp

theorem sll (d s : Reg) (uimm4 : BitVec 4) : Statement (.sll d s uimm4) :=
  fun _ => (encodeShift_selector _ _ _ _).trans rfl

theorem sra (d s : Reg) (uimm4 : BitVec 4) : Statement (.sra d s uimm4) :=
  fun _ => (encodeShift_selector _ _ _ _).trans rfl

theorem srl (d s : Reg) (uimm4 : BitVec 4) : Statement (.srl d s uimm4) :=
  fun _ => (encodeShift_selector _ _ _ _).trans rfl

theorem mod (d s t : Reg) : Statement (.mod d s t) := by
  intro _
  apply BitVec.eq_of_getLsbD_eq
  intro k hk
  simp only [encode, rowOf, rowIndex, opcodeTable, BitVec.getLsbD_and, BitVec.getLsbD_append]
  interval_cases k <;> simp

theorem jmpr (s : Reg) : Statement (.jmpr s) :=
  fun _ => (encodeJR_selector _ _).trans rfl

theorem jmp (imm11 : BitVec 11) : Statement (.jmp imm11) :=
  fun _ => (encodeJI_selector _ _).trans rfl

theorem hiconst (d : Reg) (uimm8 : BitVec 8) : Statement (.hiconst d uimm8) := by
  intro _
  apply BitVec.eq_of_getLsbD_eq
  intro k hk
  simp only [encode, rowOf, rowIndex, opcodeTable, BitVec.getLsbD_and, BitVec.getLsbD_append]
  interval_cases k <;> simp

theorem trap (uimm8 : BitVec 8) : Statement (.trap uimm8) := by
  intro _
  apply BitVec.eq_of_getLsbD_eq
  intro k hk
  simp only [encode, rowOf, rowIndex, opcodeTable, BitVec.getLsbD_and, BitVec.getLsbD_append]
  interval_cases k <;> simp

theorem illegal0011 (word : Word) : Statement (.illegal0011 word) := by
  intro h; simpa [Instr.wellFormed, inRow, rowOf, rowIndex, opcodeTable, encode] using h

theorem illegal1011 (word : Word) : Statement (.illegal1011 word) := by
  intro h; simpa [Instr.wellFormed, inRow, rowOf, rowIndex, opcodeTable, encode] using h

theorem illegal1110 (word : Word) : Statement (.illegal1110 word) := by
  intro h; simpa [Instr.wellFormed, inRow, rowOf, rowIndex, opcodeTable, encode] using h

theorem illegal1101 (word : Word) : Statement (.illegal1101 word) := by
  intro h; simpa [Instr.wellFormed, inRow, rowOf, rowIndex, opcodeTable, encode] using h

end Sys2Proof.Laws.EncodeInRow
end

