-- ==== Sys2Proof/Laws/Shapes.lean ====
section
/-! SUPPORT. One lemma for each shape the instructions share (Machine/Ops.lean): everything that shape leaves
in the next state. A field of the writes that a shape does not name keeps what it guards. -/

namespace Sys2Proof.Machine

/-- What every commit leaves as it was, for a set of writes that stores nothing. -/
theorem commit_word_of_no_store (σ : State) {w : Writes} (h : w.data = none) (a : Word) :
    (σ.commit w).word a = σ.word a := by
  rw [commit_word, h]

theorem commit_reg_of_none (σ : State) {w : Writes} (h : w.reg = none) (r : Reg) :
    (σ.commit w).reg r = σ.reg r := by
  rw [commit_reg, h]

theorem commit_reg_written (σ : State) {w : Writes} {d : Reg} {v : Word} (h : w.reg = some (d, v)) :
    (σ.commit w).reg d = v := by
  rw [commit_reg, h]
  simp

theorem commit_reg_others (σ : State) {w : Writes} {d r : Reg} {v : Word} (h : w.reg = some (d, v))
    (hr : r ≠ d) : (σ.commit w).reg r = σ.reg r := by
  rw [commit_reg, h]
  simp [hr]

/-- A commit that writes neither flags nor mode leaves the PSR. -/
theorem commit_psr_of_none (σ : State) {w : Writes} (hn : w.nzp = none) (hp : w.priv = none) :
    (σ.commit w).psr = σ.psr := by
  simp [Writes.psrOf, hn, hp]

/-- A commit that writes the flags alone. -/
theorem commit_psr_of_flags (σ : State) {w : Writes} {c : Nzp} (hn : w.nzp = some c)
    (hp : w.priv = none) : (σ.commit w).psr = withNzp σ.psr c := by
  simp [Writes.psrOf, hn, hp]

/-- `resultTo`: x[d], its flags and pc + 1. -/
theorem resultTo_spec {σ τ : State} {d : Reg} {v : Word}
    (h : conclude σ (resultTo σ d v) = .next τ) :
    τ.reg d = v ∧ (∀ r, r ≠ d → τ.reg r = σ.reg r) ∧ τ.psr = withNzp σ.psr (cc (s16 v)) ∧
      (∀ a, τ.word a = σ.word a) ∧ τ.pc = σ.nextPc ∧ τ.fault = σ.fault ∧ τ.params = σ.params := by
  injection h with h
  subst h
  exact ⟨commit_reg_written σ rfl, fun r hr => commit_reg_others σ rfl hr,
    commit_psr_of_flags σ rfl rfl, commit_word_of_no_store σ rfl, rfl, rfl, rfl⟩

/-- `flagsFrom`: the flags and pc + 1. -/
theorem flagsFrom_spec {σ τ : State} {n : Int} (h : conclude σ (flagsFrom σ n) = .next τ) :
    (∀ r, τ.reg r = σ.reg r) ∧ τ.psr = withNzp σ.psr (cc n) ∧ (∀ a, τ.word a = σ.word a) ∧
      τ.pc = σ.nextPc ∧ τ.fault = σ.fault ∧ τ.params = σ.params := by
  injection h with h
  subst h
  exact ⟨commit_reg_of_none σ rfl, commit_psr_of_flags σ rfl rfl, commit_word_of_no_store σ rfl,
    rfl, rfl, rfl⟩

/-- `jumpTo`: pc alone. -/
theorem jumpTo_spec {σ τ : State} {target : Word} (h : conclude σ (jumpTo target) = .next τ) :
    τ.pc = target ∧ (∀ r, τ.reg r = σ.reg r) ∧ τ.psr = σ.psr ∧ (∀ a, τ.word a = σ.word a) ∧
      τ.fault = σ.fault ∧ τ.params = σ.params := by
  injection h with h
  subst h
  exact ⟨rfl, commit_reg_of_none σ rfl, commit_psr_of_none σ rfl rfl,
    commit_word_of_no_store σ rfl, rfl, rfl⟩

/-- `branch` is a jump, to its target or to pc + 1. -/
theorem branch_eq (m : Nzp) (imm9 : BitVec 9) (σ : State) :
    branch m imm9 σ =
      jumpTo (if m &&& nzpOf σ.psr ≠ 0b000#3 then relativeTarget σ.pc imm9 else σ.nextPc) := by
  unfold branch
  split <;> rfl

/-- `linkAndGo`: x[7], its flags and the target. -/
theorem linkAndGo_spec {σ τ : State} {target : Word}
    (h : conclude σ (.commits (linkAndGo σ target)) = .next τ) :
    τ.reg linkReg = σ.nextPc ∧ (∀ r, r ≠ linkReg → τ.reg r = σ.reg r) ∧
      τ.psr = withNzp σ.psr (cc (s16 σ.nextPc)) ∧ (∀ a, τ.word a = σ.word a) ∧ τ.pc = target ∧
      τ.fault = σ.fault ∧ τ.params = σ.params := by
  injection h with h
  subst h
  exact ⟨commit_reg_written σ rfl, fun r hr => commit_reg_others σ rfl hr,
    commit_psr_of_flags σ rfl rfl, commit_word_of_no_store σ rfl, rfl, rfl, rfl⟩

/-- `takeTrap`: as `linkAndGo`, and PRIV becomes 1. -/
theorem takeTrap_spec {σ τ : State} {uimm8 : BitVec 8}
    (h : conclude σ (takeTrap σ uimm8) = .next τ) :
    τ.reg linkReg = σ.nextPc ∧ (∀ r, r ≠ linkReg → τ.reg r = σ.reg r) ∧
      τ.psr = withPriv (withNzp σ.psr (cc (s16 σ.nextPc))) true ∧
      (∀ a, τ.word a = σ.word a) ∧ τ.pc = trapTarget uimm8 ∧ τ.fault = σ.fault ∧
      τ.params = σ.params := by
  injection h with h
  subst h
  exact ⟨commit_reg_written σ rfl, fun r hr => commit_reg_others σ rfl hr, rfl,
    commit_word_of_no_store σ rfl, rfl, rfl, rfl⟩

/-- `returnFromTrap`: pc from x[7], and PRIV becomes 0. -/
theorem returnFromTrap_spec {σ τ : State} (h : conclude σ (returnFromTrap σ) = .next τ) :
    τ.pc = σ.reg linkReg ∧ (∀ r, τ.reg r = σ.reg r) ∧ τ.psr = withPriv σ.psr false ∧
      (∀ a, τ.word a = σ.word a) ∧ τ.fault = σ.fault ∧ τ.params = σ.params := by
  injection h with h
  subst h
  exact ⟨rfl, commit_reg_of_none σ rfl, rfl, commit_word_of_no_store σ rfl, rfl, rfl⟩

/-- `divideInto` is the result, 0, or the DivideByZero fault. -/
theorem divideInto_eq (σ : State) (d : Reg) (divisor quotient : Word) :
    (divisor ≠ 0x0000#16 → divideInto σ d divisor quotient = resultTo σ d quotient) ∧
      (divisor = 0x0000#16 → σ.params.divByZero = .zeroResult →
        divideInto σ d divisor quotient = resultTo σ d zeroDivisorResult) ∧
      (divisor = 0x0000#16 → σ.params.divByZero = .fault →
        divideInto σ d divisor quotient = .raises (divideFault σ)) := by
  unfold divideInto
  refine ⟨fun h => if_neg h, fun h hp => ?_, fun h hp => ?_⟩ <;> rw [if_pos h, hp]

/-- A raised fault sets `FAULT` alone. -/
theorem raises_spec {σ τ : State} {r : FaultRecord} (h : conclude σ (.raises r) = .next τ) :
    τ = σ.latch r := by
  injection h with h
  exact h.symm

end Sys2Proof.Machine

namespace Sys2Proof

/-- A field that a row's mask covers holds the row's bits: what the decoder branches on. -/
theorem field_of_row {w mask bits : Word} (h : w &&& mask = bits) (lo len : Nat)
    (hm : mask.extractLsb' lo len = BitVec.allOnes len) :
    w.extractLsb' lo len = bits.extractLsb' lo len := by
  rw [← h, BitVec.extractLsb'_and, hm, BitVec.and_allOnes]

end Sys2Proof
end

