-- ==== Sys2Proof/Tests/Slice0.lean ====
section
/-! SUPPORT. Tests. The decode words are written out from the formats of 30_encoding.md R62; the one-step
tests are rows of 95_test_vectors.md, named after the row (B1, A2, ...); the loads and trace lines are its
Part 4 and its printed lines. Then a witness for the hypotheses of each statement that has some. -/

namespace Sys2Proof.Tests

open Sys2Proof Sys2Proof.Machine Sys2Proof.Claims

/-! ## Well-formedness refuses a word outside its illegal row (30_encoding.md R67) -/

theorem test_wf_refuses_0011 : (Instr.illegal0011 0x1000#16).wellFormed = false := by decide
theorem test_wf_refuses_1011 : (Instr.illegal1011 0xA000#16).wellFormed = false := by decide
theorem test_wf_refuses_1110 : (Instr.illegal1110 0xF000#16).wellFormed = false := by decide
theorem test_wf_refuses_1101 : (Instr.illegal1101 0xD100#16).wellFormed = false := by decide
theorem test_wf_accepts_1101 : (Instr.illegal1101 0xDEFF#16).wellFormed = true := by decide

/-! ## Decoding: one word a constructor, fields in the order of R62 -/

theorem test_decode_nop : decode 0b0000000101010101#16 = .nop 0b101010101#9 := by decide
theorem test_decode_brp : decode 0b0000001111111101#16 = .brp 0b111111101#9 := by decide
theorem test_decode_brz : decode 0b0000010000000001#16 = .brz 0b000000001#9 := by decide
theorem test_decode_brzp : decode 0b0000011000000101#16 = .brzp 0b000000101#9 := by decide
theorem test_decode_brn : decode 0b0000100000000101#16 = .brn 0b000000101#9 := by decide
theorem test_decode_brnp : decode 0b0000101111111111#16 = .brnp 0b111111111#9 := by decide
theorem test_decode_brnz : decode 0b0000110111111110#16 = .brnz 0b111111110#9 := by decide
theorem test_decode_brnzp : decode 0b0000111100000000#16 = .brnzp 0b100000000#9 := by decide
theorem test_decode_add : decode 0b0001010000000001#16 = .add 2#3 0#3 1#3 := by decide
theorem test_decode_mul : decode 0b0001101001001010#16 = .mul 5#3 1#3 2#3 := by decide
theorem test_decode_sub : decode 0b0001010011010100#16 = .sub 2#3 3#3 4#3 := by decide
theorem test_decode_div : decode 0b0001110000011001#16 = .div 6#3 0#3 1#3 := by decide
theorem test_decode_addi : decode 0b0001001110110111#16 = .addi 1#3 6#3 0b10111#5 := by decide
theorem test_decode_cmp : decode 0b0010011001111101#16 = .cmp 3#3 5#3 := by decide
theorem test_decode_cmpu : decode 0b0010011010000101#16 = .cmpu 3#3 5#3 := by decide
theorem test_decode_cmpi : decode 0b0010010101000001#16 = .cmpi 2#3 0b1000001#7 := by decide
theorem test_decode_cmpiu : decode 0b0010010111000001#16 = .cmpiu 2#3 0b1000001#7 := by decide
theorem test_decode_jsrr : decode 0b0100011101010101#16 = .jsrr 5#3 := by decide
theorem test_decode_jsr : decode 0b0100110000100001#16 = .jsr 0b10000100001#11 := by decide
theorem test_decode_and : decode 0b0101000001000010#16 = .and 0#3 1#3 2#3 := by decide
theorem test_decode_not : decode 0b0101011100001111#16 = .not 3#3 4#3 := by decide
theorem test_decode_or : decode 0b0101100001010010#16 = .or 4#3 1#3 2#3 := by decide
theorem test_decode_xor : decode 0b0101101001011010#16 = .xor 5#3 1#3 2#3 := by decide
theorem test_decode_andi : decode 0b0101110001110000#16 = .andi 6#3 1#3 0b10000#5 := by decide
theorem test_decode_ldr : decode 0b0110100010100001#16 = .ldr 4#3 2#3 0b100001#6 := by decide
theorem test_decode_str : decode 0b0111011010100001#16 = .str 3#3 2#3 0b100001#6 := by decide
theorem test_decode_rti : decode 0b1000101010101010#16 = .rti := by decide
theorem test_decode_const : decode 0b1001011100000101#16 = .const 3#3 0b100000101#9 := by decide
theorem test_decode_sll : decode 0b1010001110001001#16 = .sll 1#3 6#3 9#4 := by decide
theorem test_decode_sra : decode 0b1010101100010001#16 = .sra 5#3 4#3 1#4 := by decide
theorem test_decode_srl : decode 0b1010110100101100#16 = .srl 6#3 4#3 12#4 := by decide
theorem test_decode_mod : decode 0b1010011000111001#16 = .mod 3#3 0#3 1#3 := by decide
theorem test_decode_jmpr : decode 0b1100010111000111#16 = .jmpr 7#3 := by decide
theorem test_decode_jmp : decode 0b1100110000000010#16 = .jmp 0b10000000010#11 := by decide
theorem test_decode_hiconst : decode 0b1101010110100001#16 = .hiconst 2#3 0b10100001#8 := by decide
theorem test_decode_trap : decode 0b1111101000100010#16 = .trap 0b00100010#8 := by decide
theorem test_decode_illegal0011 : decode 0b0011000000000001#16 = .illegal0011 0x3001#16 := by decide
theorem test_decode_illegal1011 : decode 0b1011000100100011#16 = .illegal1011 0xB123#16 := by decide
theorem test_decode_illegal1110 : decode 0b1110111111111111#16 = .illegal1110 0xEFFF#16 := by decide
theorem test_decode_illegal1101 : decode 0b1101010010100000#16 = .illegal1101 0xD4A0#16 := by decide

theorem test_decodeTableWord : decodeTableWord 16 0x1401 = some (.add 2#3 0#3 1#3) := by decide
theorem test_decodeTableWord_too_long : decodeTableWord 32 0x11401 = none := by decide

/-! ## One step -/

/-- The state of a row: pc, PSR, the registers and memory words the row lists, all else 0x0000. -/
def row (pc psr : Word) (regs mem : List (Nat × Word)) : State :=
  { State.reset with
    pc := pc
    psr := psr
    regs := regs.foldl (fun f c => writeReg f (BitVec.ofNat 3 c.1) c.2) State.reset.regs
    mem := mem.foldl (fun m c => Memory.write m (BitVec.ofNat 16 c.1) c.2) State.reset.mem }

/-- The row with other parameters. -/
def withParams (s : State) (z : DivByZero) (o : JsrrLinkOrder) : State :=
  { s with params := { s.params with divByZero := z, jsrrLinkOrder := o } }

/-- One step with the word `I` at pc: x[r], PSR, pc and whether a fault is latched. -/
def stepReg (s : State) (word : Nat) (r : Reg) : Option (Word × Word × Word × Bool) :=
  match step (s.withFetchWord 16 word) with
  | .next t => some (t.reg r, t.psr, t.pc, t.fault.isSome)
  | .fault _ => none
  | .refused _ => none

/-- One step with the word `I` at pc: M[a], PSR, pc and whether a fault is latched. -/
def stepWord (s : State) (word : Nat) (a : Word) : Option (Word × Word × Word × Bool) :=
  match step (s.withFetchWord 16 word) with
  | .next t => some (t.word a, t.psr, t.pc, t.fault.isSome)
  | .fault _ => none
  | .refused _ => none

/-- One step with the word `I` at pc: the record it latches. -/
def stepFault (s : State) (word : Nat) : Option FaultRecord :=
  match step (s.withFetchWord 16 word) with
  | .next t => t.fault
  | .fault _ => none
  | .refused _ => none


/-- B2: NOP with nonzero offset. -/
theorem test_B2 : stepReg (row 0x8200#16 0x8001#16 [] []) 0x01FF 0#3 =
    some (0x0000#16, 0x8001#16, 0x8201#16, false) := by decide

/-- B3: BRp taken backwards. -/
theorem test_B3 : stepReg (row 0x8204#16 0x8001#16 [] []) 0x03FD 1#3 =
    some (0x0000#16, 0x8001#16, 0x8202#16, false) := by decide

/-- B4: BRp not taken. -/
theorem test_B4 : stepReg (row 0x8204#16 0x8002#16 [] []) 0x03FD 1#3 =
    some (0x0000#16, 0x8002#16, 0x8205#16, false) := by decide

/-- B6: BRz offset -1 (self-loop). -/
theorem test_B6 : stepReg (row 0x8200#16 0x8002#16 [] []) 0x05FF 2#3 =
    some (0x0000#16, 0x8002#16, 0x8200#16, false) := by decide

/-- B7: BRz maximum forward offset. -/
theorem test_B7 : stepReg (row 0x8200#16 0x8002#16 [] []) 0x04FF 2#3 =
    some (0x0000#16, 0x8002#16, 0x8300#16, false) := by decide

/-- B8: BRzp not taken on N. -/
theorem test_B8 : stepReg (row 0x0010#16 0x0004#16 [] []) 0x0605 3#3 =
    some (0x0000#16, 0x0004#16, 0x0011#16, false) := by decide

/-- B9: BRzp taken on Z. -/
theorem test_B9 : stepReg (row 0x0010#16 0x0002#16 [] []) 0x0605 3#3 =
    some (0x0000#16, 0x0002#16, 0x0016#16, false) := by decide

/-- B10: BRn not taken on Z (Scenario 2). -/
theorem test_B10 : stepReg (row 0x8202#16 0x8002#16 [] []) 0x0805 4#3 =
    some (0x0000#16, 0x8002#16, 0x8203#16, false) := by decide

/-- B11: BRn taken. -/
theorem test_B11 : stepReg (row 0x8202#16 0x8004#16 [] []) 0x0805 4#3 =
    some (0x0000#16, 0x8004#16, 0x8208#16, false) := by decide

/-- B12: BRnp self-loop. -/
theorem test_B12 : stepReg (row 0x8000#16 0x8001#16 [] []) 0x0BFF 5#3 =
    some (0x0000#16, 0x8001#16, 0x8000#16, false) := by decide

/-- B13: BRnz wraps below 0x0000. -/
theorem test_B13 : stepReg (row 0x0000#16 0x0002#16 [] []) 0x0DFE 6#3 =
    some (0x0000#16, 0x0002#16, 0xFFFF#16, false) := by decide

/-- B14: BRnzp minimum offset. -/
theorem test_B14 : stepReg (row 0x8100#16 0x8004#16 [] []) 0x0F00 7#3 =
    some (0x0000#16, 0x8004#16, 0x8001#16, false) := by decide

/-- A2: ADD signed overflow. -/
theorem test_A2 : stepReg (row 0x8200#16 0x8001#16 [(0, 0x7FFF#16), (1, 0x0001#16)] []) 0x1401 2#3 =
    some (0x8000#16, 0x8004#16, 0x8201#16, false) := by decide

/-- A3: ADD d = s = t. -/
theorem test_A3 : stepReg (row 0x8200#16 0x8001#16 [(1, 0x0003#16)] []) 0x1249 1#3 =
    some (0x0009#16, 0x8001#16, 0x8201#16, false) := by decide

/-- A4: MUL negative. -/
theorem test_A4 : stepReg (row 0x8200#16 0x8001#16 [(1, 0x0003#16), (2, 0xFFFE#16)] []) 0x1A4A 5#3 =
    some (0xFFFA#16, 0x8004#16, 0x8201#16, false) := by decide

/-- A6: MUL -1 * -1. -/
theorem test_A6 : stepReg (row 0x8200#16 0x8001#16 [(1, 0xFFFF#16), (2, 0xFFFF#16)] []) 0x1A4A 5#3 =
    some (0x0001#16, 0x8001#16, 0x8201#16, false) := by decide

/-- A7: SUB negative result. -/
theorem test_A7 : stepReg (row 0x8200#16 0x8001#16 [(3, 0x0005#16), (4, 0x0007#16)] []) 0x14D4 2#3 =
    some (0xFFFE#16, 0x8004#16, 0x8201#16, false) := by decide

/-- A8: SUB wraps. -/
theorem test_A8 : stepReg (row 0x8200#16 0x8001#16 [(3, 0x8000#16), (4, 0x0001#16)] []) 0x14D4 2#3 =
    some (0x7FFF#16, 0x8001#16, 0x8201#16, false) := by decide

/-- A11: DIV quotient with bit 15. -/
theorem test_A11 : stepReg (row 0x8200#16 0x8001#16 [(0, 0x8000#16), (1, 0x0001#16)] []) 0x1C19 6#3 =
    some (0x8000#16, 0x8004#16, 0x8201#16, false) := by decide

/-- A13: DIV by zero, Fault. -/
theorem test_A13 : stepFault (withParams (row 0x8200#16 0x8001#16 [(0, 0x0011#16), (1, 0x0000#16)] []) .fault .readBeforeLink) 0x1C19 =
    some (FaultRecord.mk .divideByZero .execute 0x8200#16 0x8200#16 (some 0x1C19#16)) := by decide

/-- A14: ADDI -1 to zero. -/
theorem test_A14 : stepReg (row 0x8200#16 0x8001#16 [(1, 0x0001#16)] []) 0x127F 1#3 =
    some (0x0000#16, 0x8002#16, 0x8201#16, false) := by decide

/-- A16: ADDI +15. -/
theorem test_A16 : stepReg (row 0x8200#16 0x8001#16 [(1, 0x7FF0#16)] []) 0x126F 1#3 =
    some (0x7FFF#16, 0x8001#16, 0x8201#16, false) := by decide

/-- C2: CMP no wrap. -/
theorem test_C2 : stepReg (row 0x8200#16 0x8001#16 [(0, 0x7FFF#16), (1, 0x8000#16)] []) 0x2001 0#3 =
    some (0x7FFF#16, 0x8001#16, 0x8201#16, false) := by decide

/-- C4: CMP with don't-care bits set. -/
theorem test_C4 : stepReg (row 0x8200#16 0x8001#16 [(0, 0x0001#16), (1, 0x0002#16)] []) 0x2079 0#3 =
    some (0x0001#16, 0x8004#16, 0x8201#16, false) := by decide

/-- C5: CMPU unsigned order. -/
theorem test_C5 : stepReg (row 0x8200#16 0x8001#16 [(0, 0x8000#16), (1, 0x0001#16)] []) 0x2081 0#3 =
    some (0x8000#16, 0x8001#16, 0x8201#16, false) := by decide

/-- C6: CMPU zero below all. -/
theorem test_C6 : stepReg (row 0x8200#16 0x8001#16 [(0, 0x0000#16), (1, 0xFFFF#16)] []) 0x2081 0#3 =
    some (0x0000#16, 0x8004#16, 0x8201#16, false) := by decide

/-- C7: CMPI -1. -/
theorem test_C7 : stepReg (row 0x8200#16 0x8001#16 [(2, 0xFFFF#16)] []) 0x257F 2#3 =
    some (0xFFFF#16, 0x8002#16, 0x8201#16, false) := by decide

/-- C8: CMPI extreme. -/
theorem test_C8 : stepReg (row 0x8200#16 0x8001#16 [(2, 0x8000#16)] []) 0x253F 2#3 =
    some (0x8000#16, 0x8004#16, 0x8201#16, false) := by decide

/-- C9: CMPIU 127. -/
theorem test_C9 : stepReg (row 0x8200#16 0x8001#16 [(2, 0xFFFF#16)] []) 0x25FF 2#3 =
    some (0xFFFF#16, 0x8001#16, 0x8201#16, false) := by decide

/-- C10: CMPIU 0 vs 1. -/
theorem test_C10 : stepReg (row 0x8200#16 0x8001#16 [(2, 0x0000#16)] []) 0x2581 2#3 =
    some (0x0000#16, 0x8004#16, 0x8201#16, false) := by decide

/-- M9: LDR address wraps. -/
theorem test_M9 : stepReg (row 0x8200#16 0x8001#16 [(2, 0x0000#16)] [(0xFFFF, 0x0007#16)]) 0x68BF 4#3 =
    some (0x0007#16, 0x8001#16, 0x8201#16, false) := by decide

/-- M6: LDR user from OSCode (priority). -/
theorem test_M6 : stepFault (row 0x0100#16 0x0001#16 [(2, 0x8200#16)] []) 0x6880 =
    some (FaultRecord.mk .privilegeViolation .load 0x0100#16 0x8200#16 (some 0x6880#16)) := by decide

/-- M11: STR supervisor to OSData. -/
theorem test_M11 : stepWord (row 0x8200#16 0x8001#16 [(2, 0xA000#16), (3, 0xFFF9#16)] []) 0x7681 0xA001#16 =
    some (0xFFF9#16, 0x8001#16, 0x8201#16, false) := by decide

/-- M14: STR supervisor to OSCode. -/
theorem test_M14 : stepFault (row 0x8200#16 0x8001#16 [(2, 0x8200#16), (3, 0x0042#16)] []) 0x7680 =
    some (FaultRecord.mk .sectionTypeViolation .store 0x8200#16 0x8200#16 (some 0x7680#16)) := by decide

/-- K2: CONST -256. -/
theorem test_K2 : stepReg (row 0x8200#16 0x8001#16 [] []) 0x9100 0#3 =
    some (0xFF00#16, 0x8004#16, 0x8201#16, false) := by decide

/-- K4: CONST +255. -/
theorem test_K4 : stepReg (row 0x8200#16 0x8001#16 [] []) 0x90FF 0#3 =
    some (0x00FF#16, 0x8001#16, 0x8201#16, false) := by decide

/-- K5: HICONST. -/
theorem test_K5 : stepReg (row 0x8200#16 0x8001#16 [] []) 0xD5A0 2#3 =
    some (0xA000#16, 0x8004#16, 0x8201#16, false) := by decide

/-- K6: HICONST keeps low byte. -/
theorem test_K6 : stepReg (row 0x8200#16 0x8001#16 [(2, 0x1234#16)] []) 0xD500 2#3 =
    some (0x0034#16, 0x8001#16, 0x8201#16, false) := by decide

/-- S1: SLL 1 << 15. -/
theorem test_S1 : stepReg (row 0x8200#16 0x8001#16 [(1, 0x0001#16)] []) 0xA24F 1#3 =
    some (0x8000#16, 0x8004#16, 0x8201#16, false) := by decide

/-- S2: SLL bits lost. -/
theorem test_S2 : stepReg (row 0x8200#16 0x8001#16 [(1, 0x8000#16)] []) 0xA241 1#3 =
    some (0x0000#16, 0x8002#16, 0x8201#16, false) := by decide

/-- S4: SRA negative. -/
theorem test_S4 : stepReg (row 0x8200#16 0x8001#16 [(4, 0xFFF9#16)] []) 0xAB11 5#3 =
    some (0xFFFC#16, 0x8004#16, 0x8201#16, false) := by decide

/-- S5: SRA 0x8000 >> 15. -/
theorem test_S5 : stepReg (row 0x8200#16 0x8001#16 [(4, 0x8000#16)] []) 0xAB1F 5#3 =
    some (0xFFFF#16, 0x8004#16, 0x8201#16, false) := by decide

/-- S7: SRL. -/
theorem test_S7 : stepReg (row 0x8200#16 0x8001#16 [(4, 0xFFF9#16)] []) 0xAD2C 6#3 =
    some (0x000F#16, 0x8001#16, 0x8201#16, false) := by decide

/-- S8: SRL 0x8000 >> 15. -/
theorem test_S8 : stepReg (row 0x8200#16 0x8001#16 [(4, 0x8000#16)] []) 0xAD2F 6#3 =
    some (0x0001#16, 0x8001#16, 0x8201#16, false) := by decide

/-- S12: MOD result with bit 15. -/
theorem test_S12 : stepReg (row 0x8200#16 0x8001#16 [(0, 0x8001#16), (1, 0x8002#16)] []) 0xA631 3#3 =
    some (0x8001#16, 0x8004#16, 0x8201#16, false) := by decide

/-- S13: MOD by zero, default. -/
theorem test_S13 : stepReg (row 0x8200#16 0x8001#16 [(0, 0x0011#16), (1, 0x0000#16)] []) 0xA631 3#3 =
    some (0x0000#16, 0x8002#16, 0x8201#16, false) := by decide

/-- L2: AND sign. -/
theorem test_L2 : stepReg (row 0x8200#16 0x8001#16 [(1, 0x8001#16), (2, 0xFFFF#16)] []) 0x5042 0#3 =
    some (0x8001#16, 0x8004#16, 0x8201#16, false) := by decide

/-- L5: NOT with t nonzero. -/
theorem test_L5 : stepReg (row 0x8200#16 0x8001#16 [(3, 0x00FF#16), (7, 0x1234#16)] []) 0x56CF 3#3 =
    some (0xFF00#16, 0x8004#16, 0x8201#16, false) := by decide

/-- L6: OR. -/
theorem test_L6 : stepReg (row 0x8200#16 0x8001#16 [(1, 0x00F0#16), (2, 0x0F0F#16)] []) 0x5852 4#3 =
    some (0x0FFF#16, 0x8001#16, 0x8201#16, false) := by decide

/-- L7: XOR self. -/
theorem test_L7 : stepReg (row 0x8200#16 0x8001#16 [(1, 0x00F0#16)] []) 0x5A59 5#3 =
    some (0x0000#16, 0x8002#16, 0x8201#16, false) := by decide

/-- L8: ANDI -16. -/
theorem test_L8 : stepReg (row 0x8200#16 0x8001#16 [(1, 0x00F7#16)] []) 0x5C70 6#3 =
    some (0x00F0#16, 0x8001#16, 0x8201#16, false) := by decide

/-- L9: ANDI -1 copies. -/
theorem test_L9 : stepReg (row 0x8200#16 0x8001#16 [(1, 0x8000#16)] []) 0x5C7F 6#3 =
    some (0x8000#16, 0x8004#16, 0x8201#16, false) := by decide

/-- T2: JMPR to a data address. -/
theorem test_T2 : stepReg (row 0x8200#16 0x8001#16 [(2, 0xA000#16)] []) 0xC080 0#3 =
    some (0x0000#16, 0x8001#16, 0xA000#16, false) := by decide

/-- T4: JMP self-loop. -/
theorem test_T4 : stepReg (row 0x8201#16 0x8001#16 [] []) 0xCFFF 7#3 =
    some (0x0000#16, 0x8001#16, 0x8201#16, false) := by decide

/-- T5: JMP minimum offset wraps. -/
theorem test_T5 : stepReg (row 0x0010#16 0x0001#16 [] []) 0xCC00 6#3 =
    some (0x0000#16, 0x0001#16, 0xFC11#16, false) := by decide

/-- T7: JSRR R7, ReadBeforeLink. -/
theorem test_T7 : stepReg (row 0x8300#16 0x8001#16 [(7, 0x8400#16)] []) 0x41C0 7#3 =
    some (0x8301#16, 0x8004#16, 0x8400#16, false) := by decide

/-- T8: JSRR R7, LinkBeforeRead. -/
theorem test_T8 : stepReg (withParams (row 0x8300#16 0x8001#16 [(7, 0x8400#16)] []) .zeroResult .linkBeforeRead) 0x41C0 7#3 =
    some (0x8301#16, 0x8004#16, 0x8301#16, false) := by decide

/-- T9: JSR from OS code. -/
theorem test_T9 : stepReg (row 0x8200#16 0x8001#16 [] []) 0x4821 7#3 =
    some (0x8201#16, 0x8004#16, 0x8210#16, false) := by decide

/-- T11: JSR largest field from user code. -/
theorem test_T11 : stepReg (row 0x0100#16 0x0001#16 [] []) 0x4FFF 7#3 =
    some (0x0101#16, 0x0001#16, 0x7FF0#16, false) := by decide

/-- T13: TRAP from supervisor (nesting). -/
theorem test_T13 : stepReg (row 0x8022#16 0x8001#16 [(7, 0x0002#16)] []) 0xF0FF 7#3 =
    some (0x8023#16, 0x8004#16, 0x80FF#16, false) := by decide

/-- T14: TRAP ignores I[11:8]. -/
theorem test_T14 : stepReg (row 0x0001#16 0x0004#16 [] []) 0xFF22 7#3 =
    some (0x0002#16, 0x8001#16, 0x8022#16, false) := by decide

/-- T15: RTI (Scenario 3). -/
theorem test_T15 : stepReg (row 0x8023#16 0x8004#16 [(7, 0x8201#16)] []) 0x8000 0#3 =
    some (0x0000#16, 0x0004#16, 0x8201#16, false) := by decide

/-- T16: RTI in user mode. -/
theorem test_T16 : stepReg (row 0x0005#16 0x0001#16 [(7, 0x0100#16)] []) 0x8FFF 7#3 =
    some (0x0100#16, 0x0001#16, 0x0100#16, false) := by decide

/-- F1: fetch in user mode from OSCode. -/
theorem test_F1 : stepFault (row 0x8000#16 0x0001#16 [] []) 0x0000 =
    some (FaultRecord.mk .privilegeViolation .fetch 0x8000#16 0x8000#16 (none)) := by decide

/-- F2: fetch in supervisor mode from OSData. -/
theorem test_F2 : stepFault (row 0xA000#16 0x8001#16 [] []) 0x0000 =
    some (FaultRecord.mk .sectionTypeViolation .fetch 0xA000#16 0xA000#16 (none)) := by decide

/-- F3: fetch in user mode from UserData. -/
theorem test_F3 : stepFault (row 0x2000#16 0x0001#16 [] []) 0x0000 =
    some (FaultRecord.mk .sectionTypeViolation .fetch 0x2000#16 0x2000#16 (none)) := by decide

/-- F4: undefined opcode 0011. -/
theorem test_F4 : stepFault (row 0x8200#16 0x8001#16 [] []) 0x3000 =
    some (FaultRecord.mk .illegalInstruction .decode 0x8200#16 0x8200#16 (some 0x3000#16)) := by decide

/-- F5: undefined opcode 1011. -/
theorem test_F5 : stepFault (row 0x8200#16 0x8001#16 [] []) 0xB123 =
    some (FaultRecord.mk .illegalInstruction .decode 0x8200#16 0x8200#16 (some 0xB123#16)) := by decide

/-- F6: undefined opcode 1110. -/
theorem test_F6 : stepFault (row 0x8200#16 0x8001#16 [] []) 0xEFFF =
    some (FaultRecord.mk .illegalInstruction .decode 0x8200#16 0x8200#16 (some 0xEFFF#16)) := by decide

/-- K8: opcode 1101 with I[8] = 0. -/
theorem test_K8 : stepFault (row 0x8200#16 0x8001#16 [] []) 0xD4A0 =
    some (FaultRecord.mk .illegalInstruction .decode 0x8200#16 0x8200#16 (some 0xD4A0#16)) := by decide

/-! ## The latch, reset, the outputs -/

/-- A step with `FAULT` set does nothing and repeats the status (after F1). -/
theorem test_latched_core_stops :
    ∃ t r, step (row 0x8000#16 0x0001#16 [] []) = .next t ∧ t.fault = some r ∧
      step t = .fault (.stopped r) ∧ (output t).status = 1 :=
  ⟨_, _, rfl, rfl, rfl, rfl⟩

/-- E8: reset from a state in the middle of a run. -/
theorem test_reset_idempotent :
    hostReset (row 0x1234#16 0x0004#16 [(3, 0x0007#16)] [(5, 0x0009#16)]) = State.reset := by decide

/-- The first instruction after reset with a word placed at pc (E1). -/
theorem test_first_instruction_after_reset :
    stepReg State.reset 0x9005 0#3 = some (0x0005#16, 0x8001#16, 0x8201#16, false) := by decide

/-- The core the host sees is this machine. -/
theorem test_core_step : Sys2Proof.core.step = step := rfl

/-- The trace line of the step. -/
def lineOf (s : State) : Option String := (output s).commit.map traceLine

/-- E1, first line. -/
theorem test_trace_const :
    lineOf (row 0x8200#16 0x8001#16 [] [(0x8200, 0x9005#16)]) =
      some "8200 1001000000000101 1 0 0005 1 1 0 0000 0000\n" := by decide

/-- The printed line of M1. -/
theorem test_trace_ldr :
    lineOf (row 0x8200#16 0x8001#16 [(2, 0xA000#16)] [(0x8200, 0x6881#16), (0xA001, 0xFFF9#16)]) =
      some "8200 0110100010000001 1 4 FFF9 1 4 0 A001 FFF9\n" := by decide

/-- The printed line of M11. -/
theorem test_trace_str :
    lineOf (row 0x8200#16 0x8001#16 [(2, 0xA000#16), (3, 0xFFF9#16)] [(0x8200, 0x7681#16)]) =
      some "8200 0111011010000001 0 0 0000 0 0 1 A001 FFF9\n" := by decide

/-- The printed line of B1, the placeholder of R246. -/
theorem test_trace_zero_word :
    lineOf State.reset = some "8200 0000000000000000 0 0 0000 0 0 0 0000 0000\n" := by decide

/-- The last step of P1: TRAP xFF, and the host halts before the fetch at 0x80FF. -/
theorem test_run_halts :
    let r := runLoop 5 (row 0x8205#16 0x8002#16 [] [(0x8205, 0xF0FF#16)])
    (r.ending, r.state.pc, r.state.reg 7#3, r.records.length) =
      (.halted, 0x80FF#16, 0x8206#16, 1) := by decide

/-- The last step of P3: the fault ends the run with no record. -/
theorem test_run_faults :
    let r := runLoop 5 (row 0x0002#16 0x0001#16 [(0, 0x0014#16)] [(0x0002, 0x6200#16)])
    r.ending = .faulted
        { cause := .sectionTypeViolation, kind := .load, pc := 0x0002#16, addr := 0x0014#16,
          insn := some 0x6200#16 } ∧ r.records = [] := by decide

/-! ## Loading (95_test_vectors.md Part 4) -/

/-- O1. -/
theorem test_O1 : loadFile []
    [0xCA#8, 0xDE#8, 0x30#8, 0x00#8, 0x00#8, 0x02#8, 0x12#8, 0x34#8, 0x56#8, 0x78#8, 0xDA#8, 0xDA#8,
      0x40#8, 0x00#8, 0x00#8, 0x01#8, 0x9A#8, 0xBC#8] =
    { mem := [(0x3000, 0x1234#16), (0x3001, 0x5678#16), (0x4000, 0x9ABC#16)], warnings := [],
      ok := true } := by decide

/-- O2. -/
theorem test_O2 : loadFile []
    ([0xC3#8, 0xB7#8, 0x00#8, 0x00#8, 0x00#8, 0x02#8, 0xAA#8, 0xBB#8, 0xF1#8, 0x7E#8, 0x00#8, 0x01#8,
      0x41#8, 0x71#8, 0x5E#8] ++
      [0x00#8, 0x01#8, 0x00#8, 0x02#8, 0x00#8, 0x03#8, 0x11#8, 0x11#8, 0xCA#8, 0xDE#8, 0x82#8, 0x00#8,
        0x00#8, 0x01#8, 0x90#8, 0x05#8]) =
    { mem := [(0x8200, 0x9005#16)], warnings := [0x1111#16], ok := true } := by decide

/-- O3. -/
theorem test_O3 : loadFile []
    [0xCA#8, 0xDE#8, 0xFF#8, 0xFF#8, 0x00#8, 0x02#8, 0x11#8, 0x11#8, 0x22#8, 0x22#8, 0xCA#8, 0xDE#8,
      0x00#8, 0x00#8, 0x00#8, 0x01#8, 0x33#8, 0x33#8] =
    { mem := [(0x0000, 0x3333#16), (0xFFFF, 0x1111#16)], warnings := [], ok := true } := by decide

/-- O4. -/
theorem test_O4 : loadFile []
    [0xCA#8, 0xDE#8, 0x82#8, 0x00#8, 0x00#8, 0x03#8, 0x90#8, 0x05#8, 0x92#8, 0x03#8] =
    { mem := [(0x8200, 0x9005#16), (0x8201, 0x9203#16)], warnings := [], ok := false } := by decide

/-- O5. -/
theorem test_O5 : loadFile [] [] = { mem := [], warnings := [], ok := true } := by decide

/-- A file that fails ends the loading, and there is no launch state (R240). -/
theorem test_failed_load_is_not_launched :
    launch defaultParams [[0xCA#8], []] = none := by decide

/-! ## The notation: printed beside their words in 95_test_vectors.md -/

/-- The notation of a word. -/
def textOf (w : Word) : Option String := assembly (decode w)

theorem test_text_add : textOf 0x1401#16 = some "ADD R2, R0, R1" := by decide
theorem test_text_addi : textOf 0x127F#16 = some "ADD R1, R1, #-1" := by decide
theorem test_text_const : textOf 0x97F9#16 = some "CONST R3, #-7" := by decide
theorem test_text_str : textOf 0x7681#16 = some "STR R3, R2, #1" := by decide
theorem test_text_srl : textOf 0xAD2C#16 = some "SRL R6, R4, #12" := by decide

/-- P1: `BRp LOOP` at 0x8204 to 0x8202; P4: `JSR x8210`, `JMP #2` at 0x8201 to 0x8204, RET. -/
theorem test_labels :
    labelOffset 9 0x8204#16 0x8202#16 = some (-3#9) ∧ subroutineField 0x8210#16 = some 0x021#11 ∧
      labelOffset 11 0x8201#16 0x8204#16 = some 2#11 ∧ encode ret = 0xC1C0#16 := by decide

/-- The expansion of LC in P2: 0xA000. -/
theorem test_load_constant :
    (loadConstant 2#3 0xA000#16).map encode = [0x9400#16, 0xD5A0#16] := by decide

theorem witness_LabelsReachTheirTargets :
    labelOffset 9 0xFFFF#16 0x00FF#16 = some 0x0FF#9 ∧ labelOffset 9 0xFFFF#16 0x0100#16 = none ∧
      nzpOf State.reset.psr ≠ 0#3 ∧ labelOffset 11 0x0000#16 0xFC01#16 = some 0x400#11 ∧
      subroutineField 0xFFF0#16 = some 0x7FF#11 ∧
      (0xFFF0#16 : Word).getLsbD 15 = State.reset.pc.getLsbD 15 ∧
      ∃ t, exec (.jsr 0x7FF#11) State.reset = .next t :=
  ⟨by decide, by decide, by decide, by decide, by decide, by decide, _, rfl⟩

/-! ## Witnesses: the hypotheses of the statements can be met -/

/-- A user-mode state, at a user code address. -/
def user (regs mem : List (Nat × Word)) : State := row 0x0100#16 0x0001#16 regs mem

/-- A supervisor state, at RESET_PC. -/
def sup (regs mem : List (Nat × Word)) : State := row 0x8200#16 0x8001#16 regs mem

theorem witness_StepRunsTheDecodedInstruction :
    (let s := sup [] [(0x8200, 0x1401#16)]
     s.fault = none ∧ fetchLegal s s.pc ∧ (Instr.add 2#3 0#3 1#3).wellFormed = true ∧
      decode (s.word s.pc) = .add 2#3 0#3 1#3) ∧
    (let s := user [] [(0x0100, 0xD4A0#16)]
     s.fault = none ∧ fetchLegal s s.pc ∧ (Instr.illegal1101 0xD4A0#16).wellFormed = true ∧
      decode (s.word s.pc) = .illegal1101 0xD4A0#16) := by
  simp only [fetchLegal, supervisor, regionAt]
  decide

theorem witness_StoppedCoreHasNoStep :
    (State.reset.latch (illegalFault State.reset 0x3000#16)).fault =
      some (illegalFault State.reset 0x3000#16) := rfl

theorem witness_DecodeOfEncodeIsTheInstruction :
    (Instr.add 7#3 7#3 7#3).wellFormed = true ∧ (Instr.illegal0011 0x3FFF#16).wellFormed = true ∧
      (Instr.illegal1101 0xDEFF#16).wellFormed = true := by decide

theorem witness_StepKeepsTheInvariant :
    State.reset.Inv ∧ ∃ t, step State.reset = .next t := ⟨by decide, _, rfl⟩

theorem witness_EveryReachableStateMeetsTheInvariant : Reachable State.reset :=
  .launched defaultParams [] State.reset (by decide)

theorem witness_CanonicalMemoriesThatReadAlikeAreEqual :
    Memory.wf [(0, 0x0001#16), (65535, 0xFFFF#16)] ∧
      Memory.write [(65535, 0xFFFF#16)] 0x0000#16 0x0001#16 =
        [(0, 0x0001#16), (65535, 0xFFFF#16)] := by decide

theorem witness_StepKeepsTheParameters :
    ∃ t, step (withParams State.reset .fault .linkBeforeRead) = .next t := ⟨_, rfl⟩

/-- A step of `s` latches a fault of kind `k`. -/
def latches (s : State) (k : FaultKind) : Prop :=
  ∃ t r, step s = .next t ∧ t.fault = some r ∧ r.kind = k

theorem witness_FaultsArePrecise :
    latches (row 0x8000#16 0x0001#16 [] []) .fetch ∧
    latches (sup [] [(0x8200, 0x3000#16)]) .decode ∧
    latches (withParams (sup [] [(0x8200, 0x1C19#16)]) .fault .readBeforeLink) .execute ∧
    latches (user [(2, 0x8000#16)] [(0x0100, 0x6880#16)]) .load ∧
    latches (user [(2, 0x8000#16)] [(0x0100, 0x7680#16)]) .store :=
  ⟨⟨_, _, rfl, rfl, rfl⟩, ⟨_, _, rfl, rfl, rfl⟩, ⟨_, _, rfl, rfl, rfl⟩, ⟨_, _, rfl, rfl, rfl⟩,
    ⟨_, _, rfl, rfl, rfl⟩⟩

theorem witness_OnlyTheListedRegisterIsWritten :
    (∃ t, exec (.add 2#3 0#3 1#3) State.reset = .next t ∧ listedWrites (.add 2#3 0#3 1#3) = some 2#3) ∧
    (∃ t, exec (.trap 255#8) State.reset = .next t ∧ listedWrites (.trap 255#8) = some 7#3) ∧
    (∃ t, exec (.cmp 0#3 1#3) State.reset = .next t ∧ listedWrites (.cmp 0#3 1#3) = none) :=
  ⟨⟨_, rfl, rfl⟩, ⟨_, rfl, rfl⟩, ⟨_, rfl, rfl⟩⟩

theorem witness_OnlyTheListedInstructionsWriteFlags :
    State.reset.fault = none ∧
    (∃ t, exec (.add 2#3 0#3 1#3) State.reset = .next t ∧ listedFlags (.add 2#3 0#3 1#3) = true ∧
      t.fault = none) ∧
    (∃ t, exec .rti State.reset = .next t ∧ listedFlags .rti = false) :=
  ⟨rfl, ⟨_, rfl, rfl, rfl⟩, ⟨_, rfl, rfl⟩⟩

theorem witness_ModeChangesInThreeWays :
    (∃ t, step (user [] [(0x0100, 0xF022#16)]) = .next t ∧ t.fault = none ∧
      decode ((user [] [(0x0100, 0xF022#16)]).word 0x0100#16) = .trap 0x22#8 ∧
      ¬ supervisor (user [] [(0x0100, 0xF022#16)]) ∧ supervisor t) ∧
    (∃ t, step (sup [] [(0x8200, 0x8000#16)]) = .next t ∧ t.fault = none ∧
      decode ((sup [] [(0x8200, 0x8000#16)]).word 0x8200#16) = .rti ∧
      supervisor (sup [] [(0x8200, 0x8000#16)]) ∧ ¬ supervisor t) := by
  unfold supervisor
  exact ⟨⟨_, rfl, rfl, by decide, by decide, by decide⟩,
    ⟨_, rfl, rfl, by decide, by decide, by decide⟩⟩

theorem witness_PcAdvancesByOneUnlessRedirected :
    (∃ t, exec (.add 2#3 0#3 1#3) State.reset = .next t ∧ t.fault = none ∧
      listedTargets (.add 2#3 0#3 1#3) = false) ∧
    (∃ t, exec (.illegal0011 0x3000#16) State.reset = .next t ∧ t.fault ≠ none) :=
  ⟨⟨_, rfl, rfl, rfl⟩, ⟨_, rfl, by decide⟩⟩

/-- At the last address, where pc + 1 wraps. -/
theorem witness_RegisterSevenIsTheLinkRegister :
    let s := row 0xFFFF#16 0x8001#16 [] []
    (∃ t, exec (.jsr 0#11) s = .next t) ∧ (∃ t, exec (.jsrr 7#3) s = .next t) ∧
      (∃ t, exec (.trap 0#8) s = .next t) ∧ (∃ t, exec .rti s = .next t) :=
  ⟨⟨_, rfl⟩, ⟨_, rfl⟩, ⟨_, rfl⟩, ⟨_, rfl⟩⟩

/-- A STR to the data word next to a code region. -/
theorem witness_StepsNeverChangeCode :
    let s := sup [(2, 0xA000#16), (3, 0x0042#16)] [(0x8200, 0x7680#16)]
    (∃ t, step s = .next t ∧ t.word 0xA000#16 ≠ s.word 0xA000#16) ∧
      regionAt s 0x9FFF#16 = .osCode ∧ regionAt s 0x1FFF#16 = .userCode := by
  unfold regionAt
  exact ⟨⟨_, rfl, by decide⟩, by decide, by decide⟩

theorem witness_OnlyStrChangesMemory :
    let s := user [(2, 0x7FFF#16), (3, 0x0042#16)] [(0x0100, 0x7680#16)]
    ∃ t, step s = .next t ∧ t.word 0x7FFF#16 ≠ s.word 0x7FFF#16 := ⟨_, rfl, by decide⟩

theorem agree_after_os_write (s : State) (a v : Word)
    (h : isOS (classify s.params.memMap a) = true) :
    AgreeOutsideOS s { s with mem := Memory.write s.mem a v } := by
  refine ⟨rfl, rfl, rfl, rfl, rfl, fun b hb => ?_⟩
  have hne : b ≠ a := by
    rintro rfl
    rw [h] at hb
    exact absurd hb (by decide)
  exact (Memory.read_write_other s.mem a b v hne).symm

/-- Two states that differ at the first OS word, and a user-mode step. -/
theorem witness_UserModeIsIsolatedFromTheOS :
    let s := user [] [(0x0100, 0x9005#16)]
    let u := { s with mem := Memory.write s.mem 0x8000#16 0x1234#16 }
    AgreeOutsideOS s u ∧ s.word 0x8000#16 ≠ u.word 0x8000#16 ∧ ¬ supervisor s ∧
      (∃ t, step s = .next t) ∧ inOS s 0x8000#16 := by
  unfold supervisor inOS regionAt
  exact ⟨agree_after_os_write _ _ _ (by decide), by decide, by decide, ⟨_, rfl⟩, by decide⟩

theorem witness_FetchIsLegalOnlyInACodeRegion :
    (let s := row 0x8000#16 0x0001#16 [] []
     s.fault = none ∧ ¬ supervisor s ∧ inOS s s.pc ∧ ¬ fetchLegal s s.pc) ∧
    (let s := row 0x1FFF#16 0x0001#16 [] []
     s.fault = none ∧ fetchLegal s s.pc) ∧
    (let s := row 0x9FFF#16 0x8001#16 [] []
     s.fault = none ∧ fetchLegal s s.pc) ∧
    (let s := row 0xA000#16 0x8001#16 [] []
     s.fault = none ∧ ¬ fetchLegal s s.pc ∧ ¬ (¬ supervisor s ∧ inOS s s.pc)) ∧
    (let s := row 0x7FFF#16 0x0001#16 [] []
     s.fault = none ∧ ¬ fetchLegal s s.pc ∧ ¬ (¬ supervisor s ∧ inOS s s.pc)) := by
  simp only [fetchLegal, inOS, supervisor, regionAt]
  decide

theorem witness_DataAccessIsLegalOnlyInADataRegion :
    State.reset.fault = none ∧ supervisor State.reset ∧
      dataLegal (sup [(2, 0xA000#16)] []) (effectiveAddress 0xA000#16 0#6) ∧
      regionAt (sup [(2, 0xA000#16)] []) (effectiveAddress 0xA000#16 63#6) = .osCode ∧
      regionAt (sup [(2, 0x2000#16)] []) (effectiveAddress 0x2000#16 63#6) = .userCode := by
  simp only [dataLegal, supervisor, regionAt]
  decide

theorem witness_DefaultMapRangesAndBoundary :
    (let s := user [(2, 0x8000#16)] []
     s.params.memMap = defaultMemMap ∧ ¬ supervisor s ∧ s.fault = none ∧ s.reg 2#3 = 0x8000#16) ∧
    (let s := user [(2, 0x7FFF#16)] []
     s.params.memMap = defaultMemMap ∧ ¬ supervisor s ∧ s.fault = none ∧ s.reg 2#3 = 0x7FFF#16) := by
  simp only [supervisor]
  decide

/-- Every non-empty mask has states, with one flag set, in which it branches, and every mask but 111 some in
which it does not; the empty mask never branches, and 111 only does not with no flag set (U12, log 24). -/
theorem witness_BranchesTakenOnACommonFlag :
    (∀ m : BitVec 3, m ≠ 0 → ∃ k : Fin 3, m.getLsbD k = true ∧
      (State.psr { State.reset with psr := BitVec.twoPow 16 k }).getLsbD k = true) ∧
    (∀ m : BitVec 3, m ≠ 7#3 → ∃ k : Fin 3, ¬ ∃ j : Fin 3, m.getLsbD j = true ∧
      (State.psr { State.reset with psr := BitVec.twoPow 16 k }).getLsbD j = true) ∧
    ¬ ∃ j : Fin 3, (7#3).getLsbD j = true ∧
      (State.psr { State.reset with psr := 0x8000#16 }).getLsbD j = true := by decide

theorem witness_DivModAreUnsigned :
    (sup [(1, 0xFFFF#16)] []).reg 1#3 ≠ 0#16 ∧ State.reset.reg 1#3 = 0#16 ∧
      State.reset.params.divByZero = .zeroResult := by decide

theorem witness_DivModByZeroCanFault :
    let s := withParams State.reset .fault .readBeforeLink
    s.reg 1#3 = 0#16 ∧ s.params.divByZero = .fault := by decide

theorem witness_QuotientAndRemainderFit :
    let s := sup [(0, 0xFFFF#16), (1, 0xFFFE#16)] []
    s.reg 1#3 ≠ 0#16 ∧ (∃ t, exec (.div 6#3 0#3 1#3) s = .next t) ∧
      ∃ u, exec (.mod 3#3 0#3 1#3) s = .next u := ⟨by decide, ⟨_, rfl⟩, ⟨_, rfl⟩⟩

/-- 0x7FFF against 0x8000: the signed and the unsigned order differ. -/
theorem witness_BranchAfterCompareTestsTheOrder :
    let s := sup [(0, 0x7FFF#16), (1, 0x8000#16)] []
    (∃ t u, exec (.brn 0xFF#9) t = .next u ∧ exec (.cmp 0#3 1#3) s = .next t) ∧
      ∃ t u, exec (.brn 0x100#9) t = .next u ∧ exec (.cmpu 0#3 1#3) s = .next t :=
  ⟨⟨_, _, rfl, rfl⟩, ⟨_, _, rfl, rfl⟩⟩

/-- The first and the last word of each data region, and the words beside them. -/
theorem witness_LdrLoadsTheWordAtItsAddress :
    dataLegal (user [] []) (effectiveAddress 0x2000#16 0#6) ∧
    dataLegal (user [] []) (effectiveAddress 0x7FFF#16 0#6) ∧
    dataLegal (sup [] []) (effectiveAddress 0xA000#16 0#6) ∧
    dataLegal (sup [] []) (effectiveAddress 0x0000#16 63#6) ∧
    ¬ dataLegal (user [] []) (effectiveAddress 0x2000#16 63#6) ∧
    ¬ dataLegal (user [] []) (effectiveAddress 0x7FFF#16 1#6) := by
  simp only [dataLegal, supervisor, regionAt]
  decide

theorem witness_StrStoresTheRegisterAtItsAddress :
    dataLegal (user [] []) (effectiveAddress 0x7FFF#16 0#6) ∧
    dataLegal (sup [] []) (effectiveAddress 0x0000#16 63#6) ∧
    ¬ dataLegal (user [] []) (effectiveAddress 0x7FFF#16 1#6) ∧
    ¬ dataLegal (sup [] []) (effectiveAddress 0xA000#16 63#6) := by
  simp only [dataLegal, supervisor, regionAt]
  decide

/-- Every row that a statement says decodes so has words: its match value, and that with every other bit set. -/
theorem witness_rows :
    opcodeTable.all (fun r => r.2 &&& r.1 == r.2 && (r.2 ||| ~~~ r.1) &&& r.1 == r.2) = true := by
  decide

theorem witness_JsrrLinksAndGoesToItsRegister :
    (5#3 : Reg) ≠ 7#3 ∧ State.reset.params.jsrrLinkOrder = .readBeforeLink ∧
      (withParams State.reset .zeroResult .linkBeforeRead).params.jsrrLinkOrder = .linkBeforeRead := by
  decide

theorem witness_RtiReturnsPastTheTrap :
    ∃ t u, exec (.trap 0x22#8) (user [] []) = .next t ∧ t.reg 7#3 = t.reg 7#3 ∧
      exec .rti t = .next u ∧ u.pc = 0x0101#16 := ⟨_, _, rfl, rfl, rfl, rfl⟩

/-- A step of `s` commits, with the record `c`. -/
def commitsWith (s : State) (p : CommitRecord → Bool) : Prop :=
  ∃ t c, step s = .next t ∧ t.fault = none ∧ (output s).commit = some c ∧ p c = true

theorem witness_CommitRecordTellsWhatWasWritten :
    commitsWith (sup [] [(0x8200, 0x9005#16)]) (fun c => c.regWe && c.nzpWe && !c.dataWe) ∧
    commitsWith (sup [] [(0x8200, 0x2001#16)]) (fun c => !c.regWe && c.nzpWe && !c.dataWe) ∧
    commitsWith (sup [] [(0x8200, 0x8000#16)]) (fun c => !c.regWe && !c.nzpWe && !c.dataWe) ∧
    commitsWith (sup [(2, 0xA000#16)] [(0x8200, 0x6881#16)])
      (fun c => c.regWe && c.nzpWe && !c.dataWe && c.dataAddr == 0xA001#16) ∧
    commitsWith (sup [(2, 0xA000#16)] [(0x8200, 0x7681#16)])
      (fun c => !c.regWe && !c.nzpWe && c.dataWe && c.dataAddr == 0xA001#16) :=
  ⟨⟨_, _, rfl, rfl, rfl, rfl⟩, ⟨_, _, rfl, rfl, rfl, rfl⟩, ⟨_, _, rfl, rfl, rfl, rfl⟩,
    ⟨_, _, rfl, rfl, rfl, rfl⟩, ⟨_, _, rfl, rfl, rfl, rfl⟩⟩

/-- The shortest section and the longest, and a word and an address outside a section that wraps. -/
theorem witness_LoadedSectionReadsBack :
    ([] : List Word).length < 65536 ∧ (List.replicate 65535 0x1234#16).length < 65536 ∧
      1 < [0x1111#16, 0x2222#16].length ∧
      ∀ k, k < 2 → (0x0001#16 : Word) ≠ 0xFFFF#16 + BitVec.ofNat 16 k := by
  refine ⟨by simp, ?_, by simp, by decide⟩
  rw [List.length_replicate]
  omega

theorem witness_DebugSectionsAreDiscarded :
    ([] : List FileByte).length < 65536 ∧ (List.replicate 65535 0xAA#8).length < 65536 := by
  refine ⟨by simp, ?_⟩
  rw [List.length_replicate]
  omega

theorem witness_RunsEndHaltedOrFaulted :
    (row 0x80FF#16 0x8001#16 [] []).pc = (row 0x80FF#16 0x8001#16 [] []).params.haltPc ∧
    (runLoop 1 (sup [] [(0x8200, 0xF0FF#16)])).ending = .halted ∧
    (∃ r, (runLoop 1 (row 0x8000#16 0x0001#16 [] [])).ending = .faulted r) ∧
    (sup [] [(0x8200, 0xF0FF#16)]).fault = none ∧
    State.reset.pc ≠ State.reset.params.haltPc ∧
    (∃ t, step State.reset = .next t ∧ t.fault = none) ∧
    (∃ t r, step (row 0x8000#16 0x0001#16 [] []) = .next t ∧ t.fault = some r) ∧
    (∃ r, (State.reset.latch (illegalFault State.reset 0x3000#16)).fault = some r) ∧
    (runLoop 1 State.reset).ending = .cancelled :=
  ⟨by decide, by decide, ⟨_, rfl⟩, rfl, by decide, ⟨_, rfl, rfl⟩, ⟨_, _, rfl, rfl⟩, ⟨_, rfl⟩,
    by decide⟩

theorem witness_ZeroWordLeavesThePlaceholderLine :
    State.reset.fault = none ∧ fetchLegal State.reset State.reset.pc ∧
      State.reset.word State.reset.pc = 0#16 := by
  simp only [fetchLegal, supervisor, regionAt]
  decide

end Sys2Proof.Tests
end

section
/-! PROOFS. The invariant of the state (10_state.md R28, R29; log 17): reset meets it, every step keeps it, and
loading a file keeps memory's canonical form, so that every state of a run meets it. -/

namespace Sys2Proof.Machine

/-! ## One step -/

/-- The flags an instruction commits come from `setcc`, so exactly one of them is set. -/
theorem effect_commits_oneFlag {i : Instr} {σ : State} {w : Writes} {c : Nzp}
    (h : effect i σ = .commits w) (hc : w.nzp = some c) : oneFlag c := by
  obtain ⟨hcc, -, -⟩ := effect_commits_cases h
  obtain ⟨n, rfl⟩ := hcc c hc
  exact cc_one n

/-- A commit can break the invariant only through the flags it writes. -/
theorem commit_inv {σ : State} {w : Writes} (hw : ∀ c, w.nzp = some c → oneFlag c) (h : σ.Inv) :
    (σ.commit w).Inv := by
  obtain ⟨hmem, hreserved, hflag⟩ := h
  refine ⟨commit_mem_wf σ w hmem, (commit_reserved σ w).trans hreserved, ?_⟩
  rw [commit_nzp]
  cases hn : w.nzp with
  | none => exact hflag
  | some c => exact hw c hn

theorem latch_inv {σ : State} (r : FaultRecord) (h : σ.Inv) : (σ.latch r).Inv := h

/-- Settles O9: of the ways a step can end, a fault leaves memory and the PSR, and a commit writes only flags
that come from `setcc`. -/
theorem stepKeepsTheInvariant : Obligations.StepKeepsTheInvariant := by
  intro s t hs hstep
  obtain ⟨-, ⟨c, -, rfl⟩ | ⟨-, ⟨w, he, rfl⟩ | ⟨r, -, rfl⟩⟩⟩ := step_cases hstep
  · exact latch_inv _ hs
  · exact commit_inv (fun c hc => effect_commits_oneFlag he hc) hs
  · exact latch_inv r hs

/-! ## Reset and the loader -/

/-- Settles O2: nothing is listed in memory, and PSR = 0x8001 has P alone set and PSR[14:3] zero. -/
theorem resetMeetsTheInvariant : Obligations.ResetMeetsTheInvariant := by
  intro p
  rw [State.Inv, State.resetWith_mem, State.resetWith_psr]
  exact ⟨Memory.empty_wf, by decide, by decide⟩

theorem loadWords_wf {m : Memory} (h : m.wf) (a : Word) (n : Nat) (bytes : List FileByte) :
    (loadWords m a n bytes).1.wf := by
  induction n generalizing m a bytes with
  | zero => exact h
  | succ k ih =>
    rw [loadWords]
    cases takeField bytes with
    | none => exact h
    | some field => exact ih (Memory.write_wf a field.1 h) _ _

/-- A section that is no code and no data section writes no memory (R236 to R239). -/
theorem loadSection_mem_of_no_words (m : Memory) {tag : Word} (bytes : List FileByte)
    (h : ¬(tag = tagCode ∨ tag = tagData)) : (loadSection m tag bytes).1 = m := by
  unfold loadSection
  rw [if_neg h]
  repeat' split
  all_goals rfl

theorem loadSection_wf {m : Memory} (h : m.wf) (tag : Word) (bytes : List FileByte) :
    (loadSection m tag bytes).1.wf := by
  by_cases htag : tag = tagCode ∨ tag = tagData
  · unfold loadSection
    rw [if_pos htag]
    split
    · exact h
    · split
      · exact h
      · exact loadWords_wf h _ _ _
  · rw [loadSection_mem_of_no_words m bytes htag]
    exact h

theorem loadSections_wf {m : Memory} (h : m.wf) (fuel : Nat) (bytes : List FileByte) :
    (loadSections fuel m bytes).mem.wf := by
  induction fuel generalizing m bytes with
  | zero => cases bytes <;> exact h
  | succ k ih =>
    cases bytes with
    | nil => exact h
    | cons b bs =>
      rw [loadSections]
      cases takeField (b :: bs) with
      | none => exact h
      | some field =>
        have hsection := loadSection_wf h field.1 field.2
        dsimp only
        split
        · next heq => rwa [heq] at hsection
        · next heq =>
          rw [heq] at hsection
          split
          · exact ih hsection _
          · exact ih hsection _

theorem loadFiles_wf {m : Memory} (h : m.wf) (files : List (List FileByte)) :
    (loadFiles m files).mem.wf := by
  induction files generalizing m with
  | nil => exact h
  | cons f rest ih =>
    have hfile : (loadFile m f).mem.wf := loadSections_wf h f.length f
    rw [loadFiles]
    dsimp only
    split
    · exact ih hfile
    · exact hfile

/-- A launch state is the reset state with other memory. -/
theorem launch_some {p : Params} {files : List (List FileByte)} {σ : State}
    (h : launch p files = some σ) :
    σ = { State.resetWith p with mem := (loadFiles (State.resetWith p).mem files).mem } := by
  unfold launch at h
  dsimp only at h
  split at h
  · exact (Option.some.inj h).symm
  · exact absurd h (by simp)

theorem launch_inv {p : Params} {files : List (List FileByte)} {σ : State}
    (h : launch p files = some σ) : σ.Inv := by
  obtain ⟨hmem, hpsr⟩ := resetMeetsTheInvariant p
  rw [launch_some h]
  exact ⟨loadFiles_wf hmem files, hpsr⟩

/-- Settles O10, by induction on the run: a launch state meets the invariant, and every step keeps it. -/
theorem everyReachableStateMeetsTheInvariant :
    Obligations.EveryReachableStateMeetsTheInvariant := by
  intro s hs
  induction hs with
  | launched p files σ h => exact launch_inv h
  | stepped σ τ _ hstep ih => exact stepKeepsTheInvariant σ τ ih hstep

end Sys2Proof.Machine
end

section
/-! PROOFS. Which general register an instruction writes (10_state.md R23), and where it shows: in the next state,
and in the commit record (40_execute_common.md R108). -/

namespace Sys2Proof.Machine

open Sys2Proof.Claims

/-! ## The register an effect writes -/

/-- The writes that `e` commits, if it commits, name the register `d`; with `none` they name no register. -/
def Effect.WritesReg (e : Effect) (d : Option Reg) : Prop :=
  ∀ w, e = .commits w → w.reg.map Prod.fst = d

theorem commits_writesReg (w : Writes) : (Effect.commits w).WritesReg (w.reg.map Prod.fst) := by
  intro v h
  injection h with h
  rw [h]

theorem raises_writesReg (r : FaultRecord) (d : Option Reg) : (Effect.raises r).WritesReg d :=
  fun _ h => Effect.noConfusion h

theorem resultTo_writesReg (σ : State) (d : Reg) (r : Word) : (resultTo σ d r).WritesReg (some d) :=
  commits_writesReg _

theorem flagsFrom_writesReg (σ : State) (n : Int) : (flagsFrom σ n).WritesReg none :=
  commits_writesReg _

theorem jumpTo_writesReg (target : Word) : (jumpTo target).WritesReg none := commits_writesReg _

theorem branch_writesReg (m : Nzp) (imm9 : BitVec 9) (σ : State) : (branch m imm9 σ).WritesReg none := by
  rw [branch_eq]
  exact jumpTo_writesReg _

theorem linkAndGo_writesReg (σ : State) (target : Word) :
    (Effect.commits (linkAndGo σ target)).WritesReg (some linkReg) := commits_writesReg _

theorem divideInto_writesReg (σ : State) (d : Reg) (divisor quotient : Word) :
    (divideInto σ d divisor quotient).WritesReg (some d) := by
  unfold divideInto
  split
  · split
    · exact resultTo_writesReg _ _ _
    · exact raises_writesReg _ _
  · exact resultTo_writesReg _ _ _

theorem effJsrr_writesReg (s : Reg) (σ : State) : (effJsrr s σ).WritesReg (some linkReg) := by
  unfold effJsrr
  split
  · exact linkAndGo_writesReg _ _
  · exact linkAndGo_writesReg _ _

theorem effLdr_writesReg (d s : Reg) (imm6 : BitVec 6) (σ : State) :
    (effLdr d s imm6 σ).WritesReg (some d) := by
  unfold effLdr
  dsimp only
  split
  · exact raises_writesReg _ _
  · exact commits_writesReg _

theorem effStr_writesReg (t s : Reg) (imm6 : BitVec 6) (σ : State) :
    (effStr t s imm6 σ).WritesReg none := by
  unfold effStr
  dsimp only
  split
  · exact raises_writesReg _ _
  · exact commits_writesReg _

/-- An instruction that commits writes the register R23 lists for it, and no register where R23 lists none. -/
theorem effect_writesReg (i : Instr) (σ : State) : (effect i σ).WritesReg (listedWrites i) := by
  cases i with
  | add | mul | sub | addi | and | not | or | xor | andi | const | hiconst | sll | sra | srl =>
    exact resultTo_writesReg _ _ _
  | div | mod => exact divideInto_writesReg _ _ _ _
  | ldr => exact effLdr_writesReg _ _ _ _
  | jsr => exact linkAndGo_writesReg _ _
  | jsrr => exact effJsrr_writesReg _ _
  | trap => exact commits_writesReg _
  | nop | brp | brz | brzp | brn | brnp | brnz | brnzp => exact branch_writesReg _ _ _
  | cmp | cmpu | cmpi | cmpiu => exact flagsFrom_writesReg _ _
  | str => exact effStr_writesReg _ _ _ _
  | jmp | jmpr => exact jumpTo_writesReg _
  | rti => exact commits_writesReg _
  | illegal0011 | illegal1011 | illegal1110 | illegal1101 => exact raises_writesReg _ _

theorem effect_reg_of_unlisted {i : Instr} {σ : State} {w : Writes} (hl : listedWrites i = none)
    (h : effect i σ = .commits w) : w.reg = none :=
  Option.map_eq_none_iff.mp ((effect_writesReg i σ w h).trans hl)

theorem effect_reg_of_listed {i : Instr} {σ : State} {w : Writes} {d : Reg}
    (hl : listedWrites i = some d) (h : effect i σ = .commits w) : ∃ v, w.reg = some (d, v) := by
  obtain ⟨⟨_, v⟩, hw, rfl⟩ := Option.map_eq_some_iff.mp ((effect_writesReg i σ w h).trans hl)
  exact ⟨v, hw⟩

/-! ## The registers of the next state -/

theorem exec_sameRegs {i : Instr} {s t : State} (hl : listedWrites i = none)
    (h : exec i s = .next t) : sameRegs s t := by
  obtain ⟨w, he, rfl⟩ | ⟨r, -, rfl⟩ := exec_cases h
  · exact commit_reg_of_none s (effect_reg_of_unlisted hl he)
  · exact State.latch_reg s r

theorem exec_sameRegsBut {i : Instr} {s t : State} {d : Reg} (hl : listedWrites i = some d)
    (h : exec i s = .next t) : sameRegsBut d s t := by
  obtain ⟨w, he, rfl⟩ | ⟨r, -, rfl⟩ := exec_cases h
  · obtain ⟨v, hw⟩ := effect_reg_of_listed hl he
    exact fun q hq => commit_reg_others s hw hq
  · exact fun q _ => State.latch_reg s r q

/-! ## The register in the commit record -/

/-- A step outputs a commit record only for the writes that its instruction commits. -/
theorem output_commit_some {σ : State} {c : CommitRecord} (h : (output σ).commit = some c) :
    ∃ w, effect (decode σ.insn) σ = .commits w ∧ c = commitRecord σ w := by
  cases hf : σ.fault with
  | some r => simp [output, hf] at h
  | none =>
    cases hc : σ.check .fetch σ.pc with
    | some cause => simp [output_of_fetch_fault hf hc] at h
    | none =>
      cases he : effect (decode σ.insn) σ with
      | raises r => simp [output_of_raises hf hc he] at h
      | commits w =>
        rw [output_of_commits hf hc he] at h
        exact ⟨w, rfl, (Option.some.inj h).symm⟩

/-- Settles O14: the writes an instruction commits name the register R23 lists for it, and both the next state and
the commit record are made from those writes. -/
theorem onlyTheListedRegisterIsWritten : Obligations.OnlyTheListedRegisterIsWritten := by
  refine ⟨fun i s t h => ?_, fun s c h => ?_⟩
  · cases hl : listedWrites i with
    | none => exact exec_sameRegs hl h
    | some d => exact exec_sameRegsBut hl h
  · obtain ⟨w, he, rfl⟩ := output_commit_some h
    cases hl : listedWrites (decode (s.word s.pc)) with
    | none => simp [commitRecord, effect_reg_of_unlisted hl he]
    | some d =>
      obtain ⟨v, hw⟩ := effect_reg_of_listed hl he
      simp [commitRecord, hw]

end Sys2Proof.Machine
end

section
/-! PROOFS. The protection check (20_memory.md R43, R44, R45) in the words of the statements: when it returns, which
cause it raises, and what a fetch, a load and a store do with its answer. -/

namespace Sys2Proof.Machine

open Sys2Proof.Claims

/-! ## The answer of the check -/

theorem check_fetch_none_iff (s : State) (a : Word) : s.check .fetch a = none ↔ fetchLegal s a :=
  checkAccess_fetch_none _ _ _

theorem check_load_none_iff (s : State) (a : Word) : s.check .load a = none ↔ dataLegal s a :=
  checkAccess_load_none _ _ _

theorem check_store_eq_load (s : State) (a : Word) : s.check .store a = s.check .load a :=
  checkAccess_store _ _ _

theorem check_fetch_refuses {s : State} {a : Word} (h : ¬ fetchLegal s a) :
    ∃ c, s.check .fetch a = some c :=
  Option.ne_none_iff_exists'.mp (mt (check_fetch_none_iff s a).mp h)

theorem check_load_refuses {s : State} {a : Word} (h : ¬ dataLegal s a) :
    ∃ c, s.check .load a = some c :=
  Option.ne_none_iff_exists'.mp (mt (check_load_none_iff s a).mp h)

theorem isOS_regionAt_iff (s : State) (a : Word) : isOS (regionAt s a) = true ↔ inOS s a := by
  unfold inOS
  cases regionAt s a <;> simp [isOS]

/-- In user mode every access to an OS region, of any kind, is a privilege violation (R45). -/
theorem check_of_user_in_os {s : State} {a : Word} (k : Access) (hu : ¬ supervisor s) (ho : inOS s a) :
    s.check k a = some .privilegeViolation := by
  have hpriv : privOf s.psr = false := Bool.eq_false_of_not_eq_true hu
  have hos : isOS (classify s.params.memMap a) = true := (isOS_regionAt_iff s a).mpr ho
  simp [State.check, checkAccess, hpriv, hos]

/-- Every other access that the check refuses is of the wrong section type (R45). -/
theorem check_cause_of_not_user_in_os {s : State} {k : Access} {a : Word} {c : FaultCause}
    (h : ¬ (¬ supervisor s ∧ inOS s a)) (hc : s.check k a = some c) : c = .sectionTypeViolation := by
  have hpass : ¬ ((!privOf s.psr && isOS (classify s.params.memMap a)) = true) := by
    intro hboth
    obtain ⟨hpriv, hos⟩ := (Bool.and_eq_true _ _).mp hboth
    exact h ⟨by simpa [supervisor, privOf] using hpriv, (isOS_regionAt_iff s a).mp hos⟩
  unfold State.check checkAccess at hc
  dsimp only at hc
  rw [if_neg hpass] at hc
  cases k with
  | fetch | load | store =>
    dsimp only at hc
    split at hc
    · exact absurd hc (by simp)
    · exact (Option.some.inj hc).symm

/-! ## Fetch -/

theorem step_of_fetch_refused {s : State} {c : FaultCause} (hf : s.fault = none)
    (hc : s.check .fetch s.pc = some c) :
    step s = .next (s.latch (accessFault s c .fetch s.pc)) := by
  simp [step, hf, hc]

theorem step_fetch_fault_of_check {s : State} {c : FaultCause} (hf : s.fault = none)
    (hc : s.check .fetch s.pc = some c) :
    ∃ t r, step s = .next t ∧ t.fault = some r ∧ r.cause = c ∧ r.kind = .fetch :=
  ⟨_, _, step_of_fetch_refused hf hc, State.latch_fault _ _, rfl, rfl⟩

/-- A fetch fault comes from the fetch check alone: no instruction raises one. -/
theorem check_fetch_of_step_fetch_fault {s t : State} {r : FaultRecord} (hstep : step s = .next t)
    (hr : t.fault = some r) (hk : r.kind = .fetch) : s.check .fetch s.pc ≠ none := by
  obtain ⟨hf, ⟨c, hc, -⟩ | ⟨-, ⟨w, -, rfl⟩ | ⟨f, he, rfl⟩⟩⟩ := step_cases hstep
  · simp [hc]
  · simp [hf] at hr
  · obtain rfl : f = r := Option.some.inj hr
    obtain ⟨-, hkind, -⟩ := effect_raises_cases he
    exact absurd hk hkind

/-- Settles O22: the fetch check returns exactly when the fetch is legal, and only its refusal gives a fetch fault,
with the cause it names. -/
theorem fetchIsLegalOnlyInACodeRegion : Obligations.FetchIsLegalOnlyInACodeRegion := by
  intro s hf
  refine ⟨⟨?_, fun hl => ?_⟩, fun hu ho => ?_, fun hl hn => ?_⟩
  · rintro ⟨t, r, hstep, hr, hk⟩
    exact mt (check_fetch_none_iff s s.pc).mpr (check_fetch_of_step_fetch_fault hstep hr hk)
  · obtain ⟨c, hc⟩ := check_fetch_refuses hl
    obtain ⟨t, r, hstep, hr, -, hk⟩ := step_fetch_fault_of_check hf hc
    exact ⟨t, r, hstep, hr, hk⟩
  · exact step_fetch_fault_of_check hf (check_of_user_in_os .fetch hu ho)
  · obtain ⟨c, hc⟩ := check_fetch_refuses hl
    obtain rfl := check_cause_of_not_user_in_os hn hc
    exact step_fetch_fault_of_check hf hc

/-! ## Load and store -/

/-- From a running core an instruction completes exactly when its effect commits. -/
theorem exec_completes_iff {s : State} (hf : s.fault = none) (i : Instr) :
    (∃ t, exec i s = .next t ∧ t.fault = none) ↔ ∃ w, effect i s = .commits w := by
  constructor
  · rintro ⟨t, hexec, ht⟩
    obtain ⟨w, he, -⟩ | ⟨r, -, rfl⟩ := exec_cases hexec
    · exact ⟨w, he⟩
    · simp at ht
  · rintro ⟨w, he⟩
    exact ⟨s.commit w, by rw [exec_eq_conclude, he, conclude_commits], hf⟩

theorem exec_of_raises {i : Instr} {s : State} {r : FaultRecord} (he : effect i s = .raises r) :
    exec i s = .next (s.latch r) := by
  rw [exec_eq_conclude, he, conclude_raises]

/-- LDR and STR commit when the check at their effective address returns. -/
theorem effect_commits_of_data_check {i : Instr} {s : State} {r b : Reg} {imm6 : BitVec 6}
    (hi : i = .ldr r b imm6 ∨ i = .str r b imm6)
    (hc : s.check .load (effectiveAddress (s.reg b) imm6) = none) :
    ∃ w, effect i s = .commits w := by
  obtain rfl | rfl := hi
  · simp [effect, effLdr, hc]
  · simp [effect, effStr, check_store_eq_load, hc]

/-- LDR and STR raise the cause that the check at their effective address names. -/
theorem effect_raises_of_data_check {i : Instr} {s : State} {r b : Reg} {imm6 : BitVec 6}
    {c : FaultCause} (hi : i = .ldr r b imm6 ∨ i = .str r b imm6)
    (hc : s.check .load (effectiveAddress (s.reg b) imm6) = some c) :
    ∃ k, effect i s = .raises (accessFault s c k (effectiveAddress (s.reg b) imm6)) := by
  obtain rfl | rfl := hi
  · exact ⟨.load, by simp [effect, effLdr, hc]⟩
  · exact ⟨.store, by simp [effect, effStr, check_store_eq_load, hc]⟩

/-- LDR and STR commit exactly when the data access at their effective address is legal (R44). -/
theorem effect_commits_iff_dataLegal {i : Instr} {s : State} {r b : Reg} {imm6 : BitVec 6}
    (hi : i = .ldr r b imm6 ∨ i = .str r b imm6) :
    (∃ w, effect i s = .commits w) ↔ dataLegal s (effectiveAddress (s.reg b) imm6) := by
  refine ⟨?_, fun h => effect_commits_of_data_check hi ((check_load_none_iff s _).mpr h)⟩
  rintro ⟨w, hw⟩
  by_contra hillegal
  obtain ⟨c, hc⟩ := check_load_refuses hillegal
  obtain ⟨k, he⟩ := effect_raises_of_data_check hi hc
  rw [he] at hw
  exact Effect.noConfusion hw

theorem not_dataLegal_of_code {s : State} {a : Word}
    (h : regionAt s a = .userCode ∨ regionAt s a = .osCode) : ¬ dataLegal s a := by
  obtain h | h := h
  · simp [dataLegal, h]
  · simp [dataLegal, h]

/-- Settles O23: LDR and STR end as the check at their effective address says, and for a supervisor it refuses a code
region for its section type. -/
theorem dataAccessIsLegalOnlyInADataRegion : Obligations.DataAccessIsLegalOnlyInADataRegion := by
  intro s r b imm6 hf i hi
  refine ⟨(exec_completes_iff hf i).trans (effect_commits_iff_dataLegal hi), fun hs hcode => ?_⟩
  obtain ⟨c, hc⟩ := check_load_refuses (not_dataLegal_of_code hcode)
  obtain rfl := check_cause_of_not_user_in_os (fun ⟨hu, _⟩ => hu hs) hc
  obtain ⟨k, he⟩ := effect_raises_of_data_check hi hc
  exact ⟨_, _, exec_of_raises he, State.latch_fault _ _, rfl⟩

end Sys2Proof.Machine
end

section
/-! PROOFS. Which instructions write the flags and which give pc + 1 as the next pc (40_execute_common.md R104, R107):
both are read off the writes an instruction commits, which are of a few shapes. -/

namespace Sys2Proof.Machine

open Sys2Proof.Claims

/-! ## The shapes of the writes that an effect commits -/

/-- If `e` commits, its writes satisfy `P`. -/
def Effect.CommitsOnly (e : Effect) (P : Writes → Prop) : Prop := ∀ w, e = .commits w → P w

theorem commits_commitsOnly {P : Writes → Prop} {w : Writes} (h : P w) :
    (Effect.commits w).CommitsOnly P := by
  intro v hv
  injection hv with hv
  rwa [← hv]

theorem raises_commitsOnly (r : FaultRecord) (P : Writes → Prop) : (Effect.raises r).CommitsOnly P :=
  fun _ h => Effect.noConfusion h

theorem branch_commitsOnly {P : Writes → Prop} {σ : State} (h : ∀ target, P { pc := target })
    (m : Nzp) (imm9 : BitVec 9) : (branch m imm9 σ).CommitsOnly P := by
  rw [branch_eq]
  exact commits_commitsOnly (h _)

theorem divideInto_commitsOnly {P : Writes → Prop} {σ : State} {d : Reg}
    (h : ∀ r, (resultTo σ d r).CommitsOnly P) (divisor quotient : Word) :
    (divideInto σ d divisor quotient).CommitsOnly P := by
  unfold divideInto
  split
  · split
    · exact h _
    · exact raises_commitsOnly _ P
  · exact h _

theorem effJsrr_commitsOnly {P : Writes → Prop} {σ : State} (h : ∀ target, P (linkAndGo σ target))
    (s : Reg) : (effJsrr s σ).CommitsOnly P := by
  unfold effJsrr
  split
  · exact commits_commitsOnly (h _)
  · exact commits_commitsOnly (h _)

/-- LDR, when its check returns, writes a result's register, flags and pc, and a data access beside them. -/
theorem effLdr_commitsOnly {P : Writes → Prop} {σ : State} {d : Reg}
    (h : ∀ v access, P { reg := some (d, v), nzp := some (cc (s16 v)), data := some access, pc := σ.nextPc })
    (s : Reg) (imm6 : BitVec 6) : (effLdr d s imm6 σ).CommitsOnly P := by
  unfold effLdr
  dsimp only
  split
  · exact raises_commitsOnly _ P
  · exact commits_commitsOnly (h _ _)

/-- STR, when its check returns, writes only its data access and pc + 1. -/
theorem effStr_commitsOnly {P : Writes → Prop} {σ : State}
    (h : ∀ access, P { data := some access, pc := σ.nextPc }) (t s : Reg) (imm6 : BitVec 6) :
    (effStr t s imm6 σ).CommitsOnly P := by
  unfold effStr
  dsimp only
  split
  · exact raises_commitsOnly _ P
  · exact commits_commitsOnly (h _)

/-! ## The flags -/

/-- An instruction that commits calls `setcc` exactly when R107 lists it. -/
theorem effect_nzp_listed (i : Instr) (σ : State) :
    (effect i σ).CommitsOnly (fun w => w.nzp.isSome = listedFlags i) := by
  cases i with
  | add | mul | sub | addi | and | not | or | xor | andi | const | hiconst | sll | sra | srl
  | cmp | cmpu | cmpi | cmpiu | jsr | trap => exact commits_commitsOnly rfl
  | div | mod => exact divideInto_commitsOnly (fun _ => commits_commitsOnly rfl) _ _
  | ldr => exact effLdr_commitsOnly (fun _ _ => rfl) _ _
  | jsrr => exact effJsrr_commitsOnly (fun _ => rfl) _
  | nop | brp | brz | brzp | brn | brnp | brnz | brnzp =>
    exact branch_commitsOnly (fun _ => rfl) _ _
  | jmp | jmpr | rti => exact commits_commitsOnly rfl
  | str => exact effStr_commitsOnly (fun _ => rfl) _ _ _
  | illegal0011 | illegal1011 | illegal1110 | illegal1101 => exact raises_commitsOnly _ _

theorem effect_nzp_of_listed {i : Instr} {σ : State} {w : Writes} (hl : listedFlags i = true)
    (h : effect i σ = .commits w) : ∃ c, w.nzp = some c :=
  Option.isSome_iff_exists.mp ((effect_nzp_listed i σ w h).trans hl)

theorem effect_nzp_of_unlisted {i : Instr} {σ : State} {w : Writes} (hl : listedFlags i = false)
    (h : effect i σ = .commits w) : w.nzp = none :=
  Option.isNone_iff_eq_none.mp (Option.isSome_eq_false_iff.mp ((effect_nzp_listed i σ w h).trans hl))

theorem exec_oneFlag {i : Instr} {s t : State} (hl : listedFlags i = true) (h : exec i s = .next t)
    (ht : t.fault = none) : oneFlag (nzpOf t.psr) := by
  obtain ⟨w, he, rfl⟩ | ⟨r, -, rfl⟩ := exec_cases h
  · obtain ⟨c, hc⟩ := effect_nzp_of_listed hl he
    rw [commit_nzp, hc]
    exact effect_commits_oneFlag he hc
  · simp at ht

theorem exec_nzp_of_unlisted {i : Instr} {s t : State} (hl : listedFlags i = false)
    (h : exec i s = .next t) : nzpOf t.psr = nzpOf s.psr := by
  obtain ⟨w, he, rfl⟩ | ⟨r, -, rfl⟩ := exec_cases h
  · rw [commit_nzp, effect_nzp_of_unlisted hl he, Option.getD_none]
  · rw [State.latch_psr]

theorem exec_reserved {i : Instr} {s t : State} (h : exec i s = .next t) :
    reservedOf t.psr = reservedOf s.psr := by
  obtain ⟨w, -, rfl⟩ | ⟨r, -, rfl⟩ := exec_cases h
  · exact commit_reserved s w
  · rw [State.latch_psr]

/-- `cc` bit by bit (R106): N, Z and P tell the sign of the integer. -/
theorem cc_getLsbD_iff (n : Int) :
    ((cc n).getLsbD 2 = true ↔ n < 0) ∧ ((cc n).getLsbD 1 = true ↔ n = 0) ∧
      ((cc n).getLsbD 0 = true ↔ 0 < n) := by
  obtain h | rfl | h := lt_trichotomy n 0
  · rw [cc_neg h]
    exact ⟨iff_of_true rfl h, iff_of_false (by decide) (by omega), iff_of_false (by decide) (by omega)⟩
  · decide
  · rw [cc_pos h]
    exact ⟨iff_of_false (by decide) (by omega), iff_of_false (by decide) (by omega), iff_of_true rfl h⟩

/-- Settles O15: `setcc` puts `cc n` in the low three bits alone, and the writes an instruction commits hold flags
exactly when R107 lists it. -/
theorem onlyTheListedInstructionsWriteFlags : Obligations.OnlyTheListedInstructionsWriteFlags := by
  refine ⟨fun psr n => ?_, fun i s t _ h => ?_⟩
  · obtain ⟨hN, hZ, hP⟩ := cc_getLsbD_iff n
    refine ⟨?_, ?_, ?_, fun k hk => ?_⟩
    · rwa [withNzp_getLsbD, if_pos (by decide)]
    · rwa [withNzp_getLsbD, if_pos (by decide)]
    · rwa [withNzp_getLsbD, if_pos (by decide)]
    · rw [withNzp_getLsbD, if_neg (by omega)]
  · exact ⟨fun hl => exec_oneFlag hl h, fun hl => exec_nzp_of_unlisted hl h, exec_reserved h⟩

/-! ## The next pc -/

/-- An instruction that R104 does not list with a target of its own commits pc + 1. -/
theorem effect_pc_of_unlisted {i : Instr} (hl : listedTargets i = false) (σ : State) :
    (effect i σ).CommitsOnly (fun w => w.pc = σ.nextPc) := by
  cases i with
  | add | mul | sub | addi | and | not | or | xor | andi | const | hiconst | sll | sra | srl
  | cmp | cmpu | cmpi | cmpiu => exact commits_commitsOnly rfl
  | div | mod => exact divideInto_commitsOnly (fun _ => commits_commitsOnly rfl) _ _
  | ldr => exact effLdr_commitsOnly (fun _ _ => rfl) _ _
  | str => exact effStr_commitsOnly (fun _ => rfl) _ _ _
  | illegal0011 | illegal1011 | illegal1110 | illegal1101 => exact raises_commitsOnly _ _
  | nop | brp | brz | brzp | brn | brnp | brnz | brnzp | jmp | jmpr | jsr | jsrr | trap | rti =>
    exact Bool.noConfusion hl

/-- Settles O17: a commit takes pc from the instruction's writes, and a latched fault leaves it. -/
theorem pcAdvancesByOneUnlessRedirected : Obligations.PcAdvancesByOneUnlessRedirected := by
  intro i s t hs h
  obtain ⟨w, he, rfl⟩ | ⟨r, -, rfl⟩ := exec_cases h
  · refine ⟨fun _ hl => ?_, fun hfault => absurd hs hfault⟩
    have hpc : w.pc = following s.pc := effect_pc_of_unlisted hl s w he
    rw [pcPlusOne, State.commit_pc, hpc, following_toNat]
  · exact ⟨fun hnone => by simp at hnone, fun _ => State.latch_pc s r⟩

end Sys2Proof.Machine
end

section
/-! PROOFS. The shape of every instruction that writes a result (Machine/Ops.lean, `resultTo`) in the words of the
statements, and the instructions ADD, MUL and SUB (42_arithmetic.md R130 to R132) that have this shape. -/

namespace Sys2Proof.Machine

open Sys2Proof.Claims

/-! ## An instruction whose effect is a result -/

theorem signed_toNat (v : Word) : signed v.toNat = s16 v := (s16_eq v).symm

/-- `setcc` leaves a state whose flags tell the sign of its argument, and PSR bits 15:3 (R107). -/
theorem flagsTell_of_psr {s t : State} {n : Int} (h : t.psr = withNzp s.psr (cc n)) :
    flagsTell n t ∧ samePsrFrom 3 s t := by
  obtain ⟨hN, hZ, hP, hrest⟩ := onlyTheListedInstructionsWriteFlags.1 s.psr n
  rw [flagsTell, samePsrFrom, h]
  exact ⟨⟨hN, hZ, hP⟩, hrest⟩

theorem resultTo_resultFrame {s t : State} {d : Reg} {v : Word}
    (h : conclude s (resultTo s d v) = .next t) : t.reg d = v ∧ resultFrame d s t := by
  obtain ⟨hd, hregs, hpsr, hmem, hpc, hfault, hparams⟩ := resultTo_spec h
  obtain ⟨hflags, hrest⟩ := flagsTell_of_psr hpsr
  have hpc1 : pcPlusOne s t := (congrArg BitVec.toNat hpc).trans (following_toNat s.pc)
  rw [← hd, ← signed_toNat] at hflags
  exact ⟨hd, hregs, hflags, hrest, hmem, hpc1, hfault, hparams⟩

/-- An instruction whose effect is the result `v` answers a next state with `v` in x[d] and the result's frame. -/
theorem exec_of_resultTo {i : Instr} {s : State} {d : Reg} {v : Word}
    (h : effect i s = resultTo s d v) :
    ∃ t, exec i s = .next t ∧ t.reg d = v ∧ resultFrame d s t := by
  obtain ⟨t, ht⟩ := exec_next i s
  refine ⟨t, ht, resultTo_resultFrame ?_⟩
  rwa [exec_eq_conclude, h] at ht

theorem givesNumber_of_resultTo {i : Instr} {s : State} {d : Reg} {v : Word} {n : Nat}
    (h : effect i s = resultTo s d v) (hv : v.toNat = n) : givesNumber i s d n := by
  obtain ⟨t, ht, rfl, hframe⟩ := exec_of_resultTo h
  exact ⟨t, ht, hv, hframe⟩

/-! ## The ALU results as numbers -/

/-- `w16` of any integer, a negative one too, is the residue modulo 65536. -/
theorem w16_toNat_of_int (n : Int) : (w16 n).toNat = (n % 65536).toNat :=
  BitVec.toNat_ofInt n

theorem aluAdd_toNat (a b : Word) : (aluAdd a b).toNat = (a.toNat + b.toNat) % 65536 := by
  rw [aluAdd_eq, BitVec.toNat_add]

theorem aluMul_toNat (a b : Word) : (aluMul a b).toNat = a.toNat * b.toNat % 65536 := by
  rw [aluMul_eq, BitVec.toNat_mul]

theorem aluSub_toNat (a b : Word) :
    (aluSub a b).toNat = (((a.toNat : Int) - (b.toNat : Int)) % 65536).toNat :=
  w16_toNat_of_int _

/-! ## The rows of opcode 0001 -/

theorem decode_of_arith_opcode {w : Word} (h15 : w.extractLsb' 15 1 = 0b0#1)
    (h12 : w.extractLsb' 12 3 = 0b001#3) : decode w = decodeArith w := by
  simp only [decode, h15, h12]

/-- A row of opcode 0001 with its selectors I[5:3] fixed decodes as `decodeArith` does under these selectors. -/
theorem rowDecodes_of_decodeArith {bits : Word} {f : Word → Instr}
    (hop : bits.extractLsb' 15 1 = 0b0#1 ∧ bits.extractLsb' 12 3 = 0b001#3)
    (hf : ∀ w : Word, w.extractLsb' 5 1 = bits.extractLsb' 5 1 →
      w.extractLsb' 3 2 = bits.extractLsb' 3 2 → decodeArith w = f w) :
    rowDecodes 0xF038#16 bits f := by
  intro w h
  obtain ⟨h15, h12⟩ := hop
  have hfamily : decode w = decodeArith w := decode_of_arith_opcode
    ((field_of_row h 15 1 (by decide)).trans h15) ((field_of_row h 12 3 (by decide)).trans h12)
  rw [hfamily]
  exact hf w (field_of_row h 5 1 (by decide)) (field_of_row h 3 2 (by decide))

theorem decodeArith_add {w : Word} (h5 : w.extractLsb' 5 1 = 0b0#1)
    (h3 : w.extractLsb' 3 2 = 0b00#2) : decodeArith w = .add (fieldD w) (fieldS w) (fieldT w) := by
  simp only [decodeArith, h5, h3]

theorem decodeArith_mul {w : Word} (h5 : w.extractLsb' 5 1 = 0b0#1)
    (h3 : w.extractLsb' 3 2 = 0b01#2) : decodeArith w = .mul (fieldD w) (fieldS w) (fieldT w) := by
  simp only [decodeArith, h5, h3]

theorem decodeArith_sub {w : Word} (h5 : w.extractLsb' 5 1 = 0b0#1)
    (h3 : w.extractLsb' 3 2 = 0b10#2) : decodeArith w = .sub (fieldD w) (fieldS w) (fieldT w) := by
  simp only [decodeArith, h5, h3]

/-! ## ADD, MUL, SUB -/

/-- Settles O27: the selectors I[5:3] pick the row, and each instruction's effect is its ALU result, which is a
residue modulo 65536, with the frame that all results share. -/
theorem addMulSubAreModulo65536 : Obligations.AddMulSubAreModulo65536 := by
  refine ⟨rowDecodes_of_decodeArith (by decide) (fun _ => decodeArith_add),
    rowDecodes_of_decodeArith (by decide) (fun _ => decodeArith_mul),
    rowDecodes_of_decodeArith (by decide) (fun _ => decodeArith_sub), fun s d a b => ⟨?_, ?_, ?_⟩⟩
  · exact givesNumber_of_resultTo rfl (aluAdd_toNat (s.reg a) (s.reg b))
  · exact givesNumber_of_resultTo rfl (aluMul_toNat (s.reg a) (s.reg b))
  · exact givesNumber_of_resultTo rfl (aluSub_toNat (s.reg a) (s.reg b))

end Sys2Proof.Machine
end

section
/-! PROOFS. CONST (45_constant.md R160): its row, and the sign-extended immediate as a number. -/

namespace Sys2Proof.Machine

open Sys2Proof.Claims

/-- Sign extension (R7) keeps the signed value, which the word holds as its residue. -/
theorem sext16_toNat {n : Nat} (f : BitVec n) : (sext16 f).toNat = (f.toInt % 65536).toNat :=
  w16_toNat_of_int f.toInt

theorem imm9_toInt_bounds (imm9 : BitVec 9) : -256 ≤ imm9.toInt ∧ imm9.toInt ≤ 255 :=
  ⟨BitVec.le_toInt imm9, Int.le_of_lt_add_one BitVec.toInt_lt⟩

theorem decode_of_const_opcode {w : Word} (h15 : w.extractLsb' 15 1 = 0b1#1)
    (h12 : w.extractLsb' 12 3 = 0b001#3) : decode w = .const (fieldD w) (fieldImm9 w) := by
  simp only [decode, h15, h12]

/-- Settles O36: the opcode alone picks the row, and CONST's effect is a result, the sign-extended IMM9. -/
theorem constSetsItsSignedImmediate : Obligations.ConstSetsItsSignedImmediate := by
  refine ⟨fun w hrow => ?row, fun s d imm9 => ?result⟩
  case row =>
    exact decode_of_const_opcode (field_of_row hrow 15 1 (by decide))
      (field_of_row hrow 12 3 (by decide))
  case result =>
    obtain ⟨hlow, hhigh⟩ := imm9_toInt_bounds imm9
    exact ⟨hlow, hhigh, givesNumber_of_resultTo rfl (sext16_toNat imm9)⟩

end Sys2Proof.Machine
end

section
/-! PROOFS. SLL, SRA, SRL (46_shift_mod.md R170 to R172): the rows of opcode 1010, and the shifts as a product and
as floors of quotients. -/

namespace Sys2Proof.Machine

open Sys2Proof.Claims

/-! ## The rows of opcode 1010 -/

theorem decode_of_shift_opcode {w : Word} (h15 : w.extractLsb' 15 1 = 0b1#1)
    (h12 : w.extractLsb' 12 3 = 0b010#3) : decode w = decodeShift w := by
  simp only [decode, h15, h12]

/-- A row of opcode 1010 with its selector I[5:4] fixed decodes as `decodeShift` does under this selector. -/
theorem rowDecodes_of_decodeShift {bits : Word} {f : Word → Instr}
    (hop : bits.extractLsb' 15 1 = 0b1#1 ∧ bits.extractLsb' 12 3 = 0b010#3)
    (hf : ∀ w : Word, w.extractLsb' 4 2 = bits.extractLsb' 4 2 → decodeShift w = f w) :
    rowDecodes 0xF030#16 bits f := by
  intro w hrow
  obtain ⟨h15, h12⟩ := hop
  have hfamily : decode w = decodeShift w := decode_of_shift_opcode
    ((field_of_row hrow 15 1 (by decide)).trans h15) ((field_of_row hrow 12 3 (by decide)).trans h12)
  exact hfamily.trans (hf w (field_of_row hrow 4 2 (by decide)))

theorem decodeShift_sll {w : Word} (h : w.extractLsb' 4 2 = 0b00#2) :
    decodeShift w = .sll (fieldD w) (fieldS w) (fieldUimm4 w) := by
  simp only [decodeShift, h]

theorem decodeShift_sra {w : Word} (h : w.extractLsb' 4 2 = 0b01#2) :
    decodeShift w = .sra (fieldD w) (fieldS w) (fieldUimm4 w) := by
  simp only [decodeShift, h]

theorem decodeShift_srl {w : Word} (h : w.extractLsb' 4 2 = 0b10#2) :
    decodeShift w = .srl (fieldD w) (fieldS w) (fieldUimm4 w) := by
  simp only [decodeShift, h]

/-! ## SLL, SRA, SRL -/

/-- R171 as a number: `Int` division by a positive divisor is the floor, so -7 by 2 is -4. -/
theorem aluSra_toNat (v : Word) (u : BitVec 4) :
    (aluSra v u).toNat = ((signed v.toNat / 2 ^ u.toNat) % 65536).toNat := by
  rw [signed_toNat]
  exact w16_toNat_of_int (s16 v / 2 ^ u.toNat)

/-- Settles O39: the selector I[5:4] picks the row, and each instruction's effect is its shift's result, with the
frame that all results share. -/
theorem shiftsMultiplyAndDivideByPowersOfTwo : Obligations.ShiftsMultiplyAndDivideByPowersOfTwo := by
  refine ⟨rowDecodes_of_decodeShift (by decide) (fun _ => decodeShift_sll),
    rowDecodes_of_decodeShift (by decide) (fun _ => decodeShift_sra),
    rowDecodes_of_decodeShift (by decide) (fun _ => decodeShift_srl), fun s d a u => ⟨?_, ?_, ?_⟩⟩
  · exact givesNumber_of_resultTo rfl (aluSll_toNat (s.reg a) u)
  · exact givesNumber_of_resultTo rfl (aluSra_toNat (s.reg a) u)
  · exact givesNumber_of_resultTo rfl (aluSrl_toNat (s.reg a) u)

end Sys2Proof.Machine
end

section
/-! PROOFS. AND, OR, XOR, ANDI (47_logical.md R180, R182 to R184): the rows of opcode 0101, and the results bit by
bit. -/

namespace Sys2Proof.Machine

open Sys2Proof.Claims

/-! ## An instruction whose effect is a result, bit by bit -/

theorem givesBits_of_resultTo {i : Instr} {s : State} {d : Reg} {v : Word} {f : Nat → Bool}
    (h : effect i s = resultTo s d v) (hv : ∀ k, k < 16 → v.getLsbD k = f k) : givesBits i s d f := by
  obtain ⟨t, ht, rfl, hframe⟩ := exec_of_resultTo h
  exact ⟨t, ht, hv, hframe⟩

/-- Sign extension (R7) keeps the field's bits and copies its top bit above them. -/
theorem sext16_getLsbD {n : Nat} (f : BitVec n) {k : Nat} (hk : k < 16) :
    (sext16 f).getLsbD k = if k < n then f.getLsbD k else f.getLsbD (n - 1) := by
  rw [sext16, BitVec.getLsbD_signExtend, BitVec.msb_eq_getLsbD_last, decide_eq_true hk, Bool.true_and]

/-! ## The rows of opcode 0101 -/

theorem decode_of_logic_opcode {w : Word} (h15 : w.extractLsb' 15 1 = 0b0#1)
    (h12 : w.extractLsb' 12 3 = 0b101#3) : decode w = decodeLogic w := by
  simp only [decode, h15, h12]

/-- A row of opcode 0101 decodes as `decodeLogic` does. The mask is left open: ANDI's fixes the selector I[5], the
others' I[5:3]. -/
theorem rowDecodes_of_decodeLogic {mask bits : Word} {f : Word → Instr}
    (hmask : mask.extractLsb' 15 1 = BitVec.allOnes 1 ∧ mask.extractLsb' 12 3 = BitVec.allOnes 3)
    (hop : bits.extractLsb' 15 1 = 0b0#1 ∧ bits.extractLsb' 12 3 = 0b101#3)
    (hf : ∀ w : Word, w &&& mask = bits → decodeLogic w = f w) : rowDecodes mask bits f := by
  intro w hrow
  obtain ⟨hmask15, hmask12⟩ := hmask
  obtain ⟨h15, h12⟩ := hop
  have hfamily : decode w = decodeLogic w := decode_of_logic_opcode
    ((field_of_row hrow 15 1 hmask15).trans h15) ((field_of_row hrow 12 3 hmask12).trans h12)
  exact hfamily.trans (hf w hrow)

theorem decodeLogic_andi {w : Word} (h5 : w.extractLsb' 5 1 = 0b1#1) :
    decodeLogic w = .andi (fieldD w) (fieldS w) (fieldImm5 w) := by
  simp only [decodeLogic, h5]

theorem decodeLogic_and {w : Word} (h5 : w.extractLsb' 5 1 = 0b0#1)
    (h3 : w.extractLsb' 3 2 = 0b00#2) : decodeLogic w = .and (fieldD w) (fieldS w) (fieldT w) := by
  simp only [decodeLogic, h5, h3]

theorem decodeLogic_or {w : Word} (h5 : w.extractLsb' 5 1 = 0b0#1)
    (h3 : w.extractLsb' 3 2 = 0b10#2) : decodeLogic w = .or (fieldD w) (fieldS w) (fieldT w) := by
  simp only [decodeLogic, h5, h3]

theorem decodeLogic_xor {w : Word} (h5 : w.extractLsb' 5 1 = 0b0#1)
    (h3 : w.extractLsb' 3 2 = 0b11#2) : decodeLogic w = .xor (fieldD w) (fieldS w) (fieldT w) := by
  simp only [decodeLogic, h5, h3]

/-! ## AND, OR, XOR, ANDI -/

/-- Settles O40: the selectors I[5] and I[4:3] pick the row, and each instruction's effect is a bitwise result, with
the frame that all results share; ANDI's second operand is the sign-extended IMM5. -/
theorem logicalResultsAreBitwise : Obligations.LogicalResultsAreBitwise := by
  refine ⟨rowDecodes_of_decodeLogic (by decide) (by decide) fun w hrow => ?andRow,
    rowDecodes_of_decodeLogic (by decide) (by decide) fun w hrow => ?orRow,
    rowDecodes_of_decodeLogic (by decide) (by decide) fun w hrow => ?xorRow,
    rowDecodes_of_decodeLogic (by decide) (by decide) fun w hrow => ?andiRow,
    fun s d a b imm5 => ⟨?and, ?or, ?xor, ?andi⟩⟩
  case andRow =>
    exact decodeLogic_and (field_of_row hrow 5 1 (by decide)) (field_of_row hrow 3 2 (by decide))
  case orRow =>
    exact decodeLogic_or (field_of_row hrow 5 1 (by decide)) (field_of_row hrow 3 2 (by decide))
  case xorRow =>
    exact decodeLogic_xor (field_of_row hrow 5 1 (by decide)) (field_of_row hrow 3 2 (by decide))
  case andiRow => exact decodeLogic_andi (field_of_row hrow 5 1 (by decide))
  case and => exact givesBits_of_resultTo rfl fun _ _ => BitVec.getLsbD_and
  case or => exact givesBits_of_resultTo rfl fun _ _ => BitVec.getLsbD_or
  case xor => exact givesBits_of_resultTo rfl fun _ _ => BitVec.getLsbD_xor
  case andi =>
    refine givesBits_of_resultTo rfl fun k hk => ?_
    rw [BitVec.getLsbD_and, sext16_getLsbD imm5 hk]

end Sys2Proof.Machine
end

section
/-! PROOFS. JMPR and JMP (48_control_transfer.md R190, R191): the frame of a jump, the relative target as a number,
and the rows of opcode 1100. -/

namespace Sys2Proof.Machine

open Sys2Proof.Claims

/-! ## An instruction whose effect is a jump -/

theorem movesPc_of_jumpTo {i : Instr} {s : State} {target : Word} {n : Nat}
    (h : effect i s = jumpTo target) (hn : target.toNat = n) : movesPc i s n := by
  obtain ⟨t, ht⟩ := exec_next i s
  have hjump : conclude s (jumpTo target) = .next t := by rwa [exec_eq_conclude, h] at ht
  obtain ⟨rfl, hregs, hpsr, hmem, hfault, hparams⟩ := jumpTo_spec hjump
  exact ⟨t, ht, hn, hpsr, hregs, hmem, hfault, hparams⟩

/-- A field of at most 16 bits keeps its signed value when extended, so the target is the residue of pc + 1 plus that
value. -/
theorem relativeTarget_toNat {n : Nat} (hn : n ≤ 16) (pc : Word) (imm : BitVec n) :
    (relativeTarget pc imm).toNat = (((pc.toNat : Int) + 1 + imm.toInt) % 65536).toNat := by
  have hsext : s16 (sext16 imm) = imm.toInt := BitVec.toInt_signExtend_of_le hn
  rw [relativeTarget, hsext]
  exact w16_toNat_of_int _

/-! ## The rows of opcode 1100 -/

theorem decode_of_jump_opcode {w : Word} (h15 : w.extractLsb' 15 1 = 0b1#1)
    (h12 : w.extractLsb' 12 3 = 0b100#3) : decode w = decodeJump w := by
  simp only [decode, h15, h12]

/-- A row of opcode 1100 with its selector I[11] fixed decodes as `decodeJump` does under this selector. -/
theorem rowDecodes_of_decodeJump {bits : Word} {f : Word → Instr}
    (hop : bits.extractLsb' 15 1 = 0b1#1 ∧ bits.extractLsb' 12 3 = 0b100#3)
    (hf : ∀ w : Word, w.extractLsb' 11 1 = bits.extractLsb' 11 1 → decodeJump w = f w) :
    rowDecodes 0xF800#16 bits f := by
  intro w hrow
  obtain ⟨h15, h12⟩ := hop
  have hfamily : decode w = decodeJump w := decode_of_jump_opcode
    ((field_of_row hrow 15 1 (by decide)).trans h15) ((field_of_row hrow 12 3 (by decide)).trans h12)
  exact hfamily.trans (hf w (field_of_row hrow 11 1 (by decide)))

theorem decodeJump_jmpr {w : Word} (h : w.extractLsb' 11 1 = 0b0#1) :
    decodeJump w = .jmpr (fieldS w) := by
  simp only [decodeJump, h]

theorem decodeJump_jmp {w : Word} (h : w.extractLsb' 11 1 = 0b1#1) :
    decodeJump w = .jmp (fieldImm11 w) := by
  simp only [decodeJump, h]

/-! ## JMPR, JMP -/

/-- Settles O42: the selector I[11] picks the row, and each instruction's effect is a jump, which writes pc alone. -/
theorem jumpsChangeOnlyPc : Obligations.JumpsChangeOnlyPc := by
  refine ⟨rowDecodes_of_decodeJump (by decide) (fun _ => decodeJump_jmpr),
    rowDecodes_of_decodeJump (by decide) (fun _ => decodeJump_jmp), fun s a imm11 => ⟨?jmpr, ?jmp⟩⟩
  case jmpr => exact movesPc_of_jumpTo rfl rfl
  case jmp => exact movesPc_of_jumpTo rfl (relativeTarget_toNat (by decide) s.pc imm11)

end Sys2Proof.Machine
end

section
/-! PROOFS. The mode (60_exceptions.md R212): what each way a step can end does to PSR.PRIV. -/

namespace Sys2Proof.Machine

open Sys2Proof.Claims

/-- A commit puts the machine in the mode it writes to PSR.PRIV, or leaves the mode. -/
theorem commit_supervisor_iff (σ : State) (w : Writes) :
    supervisor (σ.commit w) ↔ w.priv.getD (privOf σ.psr) = true := by
  rw [← commit_priv]
  rfl

/-- What a step can do to the mode: a fault and any instruction but TRAP and RTI keep it, TRAP enters supervisor
mode, and RTI enters user mode at the address in R7. -/
theorem step_mode_cases {s t : State} (h : step s = .next t) :
    (t.fault ≠ none ∧ (supervisor t ↔ supervisor s)) ∨
      (((∀ u, decode (s.word s.pc) ≠ .trap u) ∧ decode (s.word s.pc) ≠ .rti) ∧
        (supervisor t ↔ supervisor s)) ∨
      ((∃ u, decode (s.word s.pc) = .trap u) ∧ supervisor t) ∨
      (decode (s.word s.pc) = .rti ∧ ¬ supervisor t ∧ t.pc = s.reg 7#3) := by
  obtain ⟨-, ⟨c, -, rfl⟩ | ⟨-, ⟨w, he, rfl⟩ | ⟨r, -, rfl⟩⟩⟩ := step_cases h
  · exact .inl ⟨by simp, Iff.rfl⟩
  · rw [commit_supervisor_iff]
    obtain ⟨-, ⟨hp, hother⟩ | ⟨hp, htrap⟩ | ⟨hp, hrti, hpc⟩, -⟩ := effect_commits_cases he
    · exact .inr (.inl ⟨hother, by rw [hp]; rfl⟩)
    · exact .inr (.inr (.inl ⟨htrap, by rw [hp]; rfl⟩))
    · exact .inr (.inr (.inr ⟨hrti, by rw [hp]; exact Bool.false_ne_true, hpc⟩))
  · exact .inl ⟨by simp, Iff.rfl⟩

/-- Settles O16: reset puts 1 in PSR[15], and of the ways a step can end only TRAP and RTI do not keep the mode. -/
theorem modeChangesInThreeWays : Obligations.ModeChangesInThreeWays := by
  refine ⟨fun _ => (by decide : (0x8001#16).getLsbD 15 = true), fun s t hstep => ?_⟩
  obtain ⟨hfault, hkeep⟩ | ⟨⟨hnoTrap, hnoRti⟩, hkeep⟩ | ⟨⟨u, htrap⟩, hsup⟩ | ⟨hrti, huser, hpc⟩ :=
    step_mode_cases hstep
  · exact ⟨fun _ hnone => absurd hnone hfault, fun _ hnone => absurd hnone hfault,
      fun hs ht => absurd (hkeep.mpr hs) ht, fun hs ht => absurd (hkeep.mp ht) hs⟩
  · exact ⟨fun ⟨u, htrap⟩ => absurd htrap (hnoTrap u), fun hrti => absurd hrti hnoRti,
      fun hs ht => absurd (hkeep.mpr hs) ht, fun hs ht => absurd (hkeep.mp ht) hs⟩
  · exact ⟨fun _ _ => hsup, fun hrti => by simp [htrap] at hrti, fun _ ht => absurd hsup ht,
      fun _ _ => ⟨u, htrap⟩⟩
  · exact ⟨fun ⟨u, htrap⟩ => by simp [hrti] at htrap, fun _ _ => ⟨huser, hpc⟩,
      fun _ _ => ⟨hrti, hpc⟩, fun _ ht => absurd ht huser⟩

end Sys2Proof.Machine
end

section
/-! PROOFS. Object files (70_reset_and_hazards.md R233 to R240): what the loader takes from the bytes of a word, which
section it loads and where it goes on, and what memory holds after the words of a code or data section. -/

namespace Sys2Proof.Machine

open Sys2Proof.Claims

/-! ## Fields and payload bytes -/

/-- The loader reads a word back from the two bytes an object file holds it in (R233). -/
@[simp] theorem takeField_fileBytes (w : Word) (rest : List FileByte) :
    takeField (fileBytes w ++ rest) = some (w, rest) := by
  have hjoin : w.extractLsb' 8 8 ++ w.extractLsb' 0 8 = w := by
    rw [BitVec.extractLsb'_append_extractLsb'_eq_extractLsb' (by decide)]
    exact BitVec.extractLsb'_eq_self
  simp only [fileBytes, List.cons_append, List.nil_append, takeField, hjoin]

@[simp] theorem skipBytes_length_append (bytes rest : List FileByte) :
    skipBytes bytes.length (bytes ++ rest) = some rest := by
  induction bytes with
  | nil => cases rest <;> rfl
  | cons _ bs ih => exact ih

/-! ## What follows a section stands at the end of the bytes before it -/

theorem takeField_some {bytes rest : List FileByte} {w : Word} (h : takeField bytes = some (w, rest)) :
    ∃ b0 b1, bytes = b0 :: b1 :: rest := by
  match bytes, h with
  | b0 :: b1 :: _, h =>
    obtain ⟨-, rfl⟩ := Prod.mk.inj (Option.some.inj h)
    exact ⟨b0, b1, rfl⟩

theorem takeField_suffix {bytes rest : List FileByte} {w : Word} (h : takeField bytes = some (w, rest)) :
    rest <:+ bytes := by
  obtain ⟨b0, b1, rfl⟩ := takeField_some h
  exact List.suffix_append [b0, b1] rest

theorem skipBytes_suffix {n : Nat} {bytes rest : List FileByte} (h : skipBytes n bytes = some rest) :
    rest <:+ bytes := by
  induction n generalizing bytes with
  | zero =>
    rw [skipBytes] at h
    rw [Option.some.inj h]
  | succ k ih =>
    cases bytes with
    | nil => cases h
    | cons b bs => exact (ih h).trans (List.suffix_cons b bs)

theorem loadWords_suffix {m : Memory} {a : Word} {n : Nat} {bytes rest : List FileByte}
    (h : (loadWords m a n bytes).2 = some rest) : rest <:+ bytes := by
  induction n generalizing m a bytes with
  | zero => rw [Option.some.inj h]
  | succ k ih =>
    rw [loadWords] at h
    split at h
    · next hfield => exact (ih h).trans (takeField_suffix hfield)
    · cases h

theorem loadSection_suffix {m : Memory} {tag : Word} {bytes rest : List FileByte}
    (h : (loadSection m tag bytes).2 = some rest) : rest <:+ bytes := by
  unfold loadSection at h
  split at h
  · split at h
    · cases h
    · next hstart =>
      split at h
      · cases h
      · next hcount =>
        exact (loadWords_suffix h).trans ((takeField_suffix hcount).trans (takeField_suffix hstart))
  · split at h
    · split at h
      · cases h
      · next hstart =>
        split at h
        · cases h
        · next hcount =>
          exact (skipBytes_suffix h).trans ((takeField_suffix hcount).trans (takeField_suffix hstart))
    · split at h
      · split at h
        · cases h
        · next hcount => exact (skipBytes_suffix h).trans (takeField_suffix hcount)
      · split at h
        · exact skipBytes_suffix h
        · rw [Option.some.inj h]

/-! ## From section to section -/

/-- Fuel for every byte is enough, and more changes nothing: every section takes its tag's two bytes. -/
theorem loadSections_fuel {j k : Nat} {bytes : List FileByte} (hj : bytes.length ≤ j)
    (hk : bytes.length ≤ k) (m : Memory) : loadSections j m bytes = loadSections k m bytes := by
  induction j generalizing k m bytes with
  | zero =>
    rw [List.eq_nil_of_length_eq_zero (Nat.le_zero.mp hj)]
    simp only [loadSections]
  | succ j ih =>
    match bytes, k, hk with
    | [], _, _ => simp only [loadSections]
    | b :: bs, k + 1, hk =>
      rw [loadSections, loadSections]
      cases hfield : takeField (b :: bs) with
      | none => rfl
      | some field =>
        obtain ⟨tag, payload⟩ := field
        obtain ⟨b0, b1, hbytes⟩ := takeField_some hfield
        have hpayload := congrArg List.length hbytes
        simp only [List.length_cons] at hpayload hj hk
        dsimp only
        split
        · rfl
        · next heq =>
          have hrest := (loadSection_suffix (congrArg Prod.snd heq)).length_le
          rw [ih (k := k) (by omega) (by omega)]

/-- A file whose first section is of a known tag loads as the rest of the file does, after that section. -/
theorem loadFile_of_section {m m1 : Memory} {tag : Word} {payload rest : List FileByte}
    (htag : knownTag tag = true) (h : loadSection m tag payload = (m1, some rest)) :
    loadFile m (fileBytes tag ++ payload) = loadFile m1 rest := by
  have hrest : rest.length ≤ payload.length + 1 :=
    (loadSection_suffix (congrArg Prod.snd h)).length_le.trans (Nat.le_succ _)
  calc loadFile m (fileBytes tag ++ payload)
      = loadSections (payload.length + 1) m1 rest := by
        have hfield := takeField_fileBytes tag payload
        simp only [fileBytes, List.cons_append, List.nil_append] at hfield ⊢
        simp only [loadFile, List.length_cons, loadSections, hfield, h, htag, if_true]
    _ = loadFile m1 rest := loadSections_fuel hrest le_rfl m1

/-! ## The words of a code or data section -/

/-- Memory with `words` written at consecutive addresses from `a`, modulo 65536 (R234). -/
def writeWords (m : Memory) (a : Word) (words : List Word) : Memory :=
  match words with
  | [] => m
  | v :: rest => writeWords (Memory.write m a v) (following a) rest

theorem loadWords_fileBytes (m : Memory) (a : Word) (words : List Word) (rest : List FileByte) :
    loadWords m a words.length (words.flatMap fileBytes ++ rest) = (writeWords m a words, some rest) := by
  induction words generalizing m a with
  | nil => rfl
  | cons v words ih =>
    simp only [List.flatMap_cons, List.append_assoc, List.length_cons, loadWords, takeField_fileBytes, ih,
      writeWords]

theorem following_add_ofNat (a : Word) (k : Nat) :
    following a + BitVec.ofNat 16 k = a + BitVec.ofNat 16 (k + 1) := by
  apply BitVec.eq_of_toNat_eq
  simp only [BitVec.toNat_add, BitVec.toNat_ofNat, following_toNat]
  omega

theorem read_writeWords_outside {m : Memory} {a c : Word} {words : List Word}
    (h : ∀ k, k < words.length → c ≠ a + BitVec.ofNat 16 k) :
    Memory.read (writeWords m a words) c = Memory.read m c := by
  induction words generalizing m a with
  | nil => rfl
  | cons v words ih =>
    have hfirst : c ≠ a := by simpa using h 0 (Nat.succ_pos _)
    have hlater : ∀ k, k < words.length → c ≠ following a + BitVec.ofNat 16 k := fun k hk => by
      rw [following_add_ofNat]
      exact h (k + 1) (Nat.succ_lt_succ hk)
    exact (ih hlater).trans (Memory.read_write_other m a c v hfirst)

/-- At most 65536 words never come round to an address already written. -/
theorem read_writeWords_getElem {m : Memory} {a : Word} {words : List Word} (h : words.length ≤ 65536)
    {k : Nat} (hk : k < words.length) :
    Memory.read (writeWords m a words) (a + BitVec.ofNat 16 k) = words[k] := by
  induction words generalizing m a k with
  | nil => exact absurd hk (Nat.not_lt_zero k)
  | cons v words ih =>
    rw [List.length_cons] at h hk
    cases k with
    | zero =>
      have hlater : ∀ j, j < words.length → a + BitVec.ofNat 16 0 ≠ following a + BitVec.ofNat 16 j := by
        intro j hj heq
        have hnat := congrArg BitVec.toNat heq
        simp only [BitVec.toNat_add, BitVec.toNat_ofNat, following_toNat] at hnat
        omega
      rw [writeWords, read_writeWords_outside hlater]
      simp
    | succ k =>
      rw [← following_add_ofNat]
      exact ih (by omega) (Nat.lt_of_succ_lt_succ hk)

theorem loadSection_words (m : Memory) {tag : Word} (start : Word) {words : List Word}
    (rest : List FileByte) (htag : tag = tagCode ∨ tag = tagData) (h : words.length < 65536) :
    loadSection m tag (fileBytes start ++ (fileBytes (BitVec.ofNat 16 words.length) ++
      (words.flatMap fileBytes ++ rest))) = (writeWords m start words, some rest) := by
  unfold loadSection
  rw [if_pos htag]
  simp only [takeField_fileBytes, BitVec.toNat_ofNat, Nat.mod_eq_of_lt h, loadWords_fileBytes]

theorem loadFile_wordSection (m : Memory) {tag : Word} (start : Word) {words : List Word}
    (htag : tag = tagCode ∨ tag = tagData) (h : words.length < 65536) :
    loadFile m (wordSection tag start words) =
      { mem := writeWords m start words, warnings := [], ok := true } := by
  have hknown : knownTag tag = true := by
    obtain rfl | rfl := htag <;> decide
  have hload := loadFile_of_section hknown (loadSection_words m start [] htag h)
  rw [List.append_nil] at hload
  simp only [wordSection, List.append_assoc]
  exact hload

/-- Settles O50: the file's one section writes its words, and what memory then holds is read off word by word. -/
theorem loadedSectionReadsBack : Obligations.LoadedSectionReadsBack := by
  intro m tag start words htag hlen
  rw [loadFile_wordSection m start htag hlen]
  exact ⟨rfl, rfl, fun _ hk => read_writeWords_getElem hlen.le hk, fun _ => read_writeWords_outside⟩

/-! ## The sections that are discarded -/

theorem loadSection_symbols (m : Memory) (start : Word) {bytes : List FileByte} (rest : List FileByte)
    (h : bytes.length < 65536) :
    loadSection m tagSymbols (fileBytes start ++ (fileBytes (BitVec.ofNat 16 bytes.length) ++
      (bytes ++ rest))) = (m, some rest) := by
  unfold loadSection
  rw [if_neg (by decide), if_pos rfl]
  simp only [takeField_fileBytes, BitVec.toNat_ofNat, Nat.mod_eq_of_lt h, skipBytes_length_append]

theorem loadSection_fileName (m : Memory) {bytes : List FileByte} (rest : List FileByte)
    (h : bytes.length < 65536) :
    loadSection m tagFileName (fileBytes (BitVec.ofNat 16 bytes.length) ++ (bytes ++ rest)) =
      (m, some rest) := by
  unfold loadSection
  rw [if_neg (by decide), if_neg (by decide), if_pos rfl]
  simp only [takeField_fileBytes, BitVec.toNat_ofNat, Nat.mod_eq_of_lt h, skipBytes_length_append]

theorem loadSection_lineNumber (m : Memory) (f1 f2 f3 : Word) (rest : List FileByte) :
    loadSection m tagLineNumber (fileBytes f1 ++ (fileBytes f2 ++ (fileBytes f3 ++ rest))) =
      (m, some rest) := by
  unfold loadSection
  rw [if_neg (by decide), if_neg (by decide), if_neg (by decide), if_pos rfl]
  exact congrArg (Prod.mk m) (skipBytes_length_append (fileBytes f1 ++ fileBytes f2 ++ fileBytes f3) rest)

/-- Settles O51: each section's payload is skipped up to the rest of the file, and memory is not written. -/
theorem debugSectionsAreDiscarded : Obligations.DebugSectionsAreDiscarded := by
  intro m start f1 f2 f3 bytes rest hlen
  simp only [List.append_assoc]
  exact ⟨loadFile_of_section (tag := tagSymbols) (by decide) (loadSection_symbols m start rest hlen),
    loadFile_of_section (tag := tagFileName) (by decide) (loadSection_fileName m rest hlen),
    loadFile_of_section (tag := tagLineNumber) (by decide) (loadSection_lineNumber m f1 f2 f3 rest)⟩

end Sys2Proof.Machine
end

section
/-! PROOFS. The rows of opcode_table.json (30_encoding.md R64 to R67): what the words of each row decode to, for the
rows whose instructions are not settled above. -/

namespace Sys2Proof.Machine

open Sys2Proof.Claims

/-! ## An opcode picks its family -/

/-- A row that fixes the opcode I[15:12] decodes as the opcode's family does on the words of the row. -/
theorem rowDecodes_of_family {mask bits : Word} {f family : Word → Instr}
    (hmask : mask.extractLsb' 15 1 = BitVec.allOnes 1 ∧ mask.extractLsb' 12 3 = BitVec.allOnes 3)
    (hop : ∀ w : Word, w.extractLsb' 15 1 = bits.extractLsb' 15 1 →
      w.extractLsb' 12 3 = bits.extractLsb' 12 3 → decode w = family w)
    (hf : ∀ w : Word, w &&& mask = bits → family w = f w) : rowDecodes mask bits f := by
  intro w hrow
  obtain ⟨h15, h12⟩ := hmask
  exact (hop w (field_of_row hrow 15 1 h15) (field_of_row hrow 12 3 h12)).trans (hf w hrow)

theorem decode_of_branch_opcode {w : Word} (h15 : w.extractLsb' 15 1 = 0b0#1)
    (h12 : w.extractLsb' 12 3 = 0b000#3) : decode w = decodeBranch w := by
  simp only [decode, h15, h12]

theorem decode_of_compare_opcode {w : Word} (h15 : w.extractLsb' 15 1 = 0b0#1)
    (h12 : w.extractLsb' 12 3 = 0b010#3) : decode w = decodeCompare w := by
  simp only [decode, h15, h12]

theorem decode_of_jsr_opcode {w : Word} (h15 : w.extractLsb' 15 1 = 0b0#1)
    (h12 : w.extractLsb' 12 3 = 0b100#3) : decode w = decodeJsr w := by
  simp only [decode, h15, h12]

theorem decode_of_hiconst_opcode {w : Word} (h15 : w.extractLsb' 15 1 = 0b1#1)
    (h12 : w.extractLsb' 12 3 = 0b101#3) : decode w = decodeHiconst w := by
  simp only [decode, h15, h12]

/-! ## Opcode 0000 -/

/-- A row of opcode 0000 with its condition mask I[11:9] fixed decodes as `decodeBranch` does under this mask. -/
theorem rowDecodes_of_decodeBranch {bits : Word} {f : Word → Instr}
    (hop : bits.extractLsb' 15 1 = 0b0#1 ∧ bits.extractLsb' 12 3 = 0b000#3)
    (hf : ∀ w : Word, w.extractLsb' 9 3 = bits.extractLsb' 9 3 → decodeBranch w = f w) :
    rowDecodes 0xFE00#16 bits f := by
  obtain ⟨h15, h12⟩ := hop
  exact rowDecodes_of_family (by decide)
    (fun w e15 e12 => decode_of_branch_opcode (e15.trans h15) (e12.trans h12))
    (fun w hrow => hf w (field_of_row hrow 9 3 (by decide)))

theorem rowDecodes_nop : rowDecodes 0xFE00#16 0x0000#16 (fun w => .nop (w.extractLsb' 0 9)) :=
  rowDecodes_of_decodeBranch (by decide)
    fun w (h : w.extractLsb' 9 3 = 0b000#3) => by simp only [decodeBranch, h, fieldImm9]

theorem rowDecodes_brp : rowDecodes 0xFE00#16 0x0200#16 (fun w => .brp (w.extractLsb' 0 9)) :=
  rowDecodes_of_decodeBranch (by decide)
    fun w (h : w.extractLsb' 9 3 = 0b001#3) => by simp only [decodeBranch, h, fieldImm9]

theorem rowDecodes_brz : rowDecodes 0xFE00#16 0x0400#16 (fun w => .brz (w.extractLsb' 0 9)) :=
  rowDecodes_of_decodeBranch (by decide)
    fun w (h : w.extractLsb' 9 3 = 0b010#3) => by simp only [decodeBranch, h, fieldImm9]

theorem rowDecodes_brzp : rowDecodes 0xFE00#16 0x0600#16 (fun w => .brzp (w.extractLsb' 0 9)) :=
  rowDecodes_of_decodeBranch (by decide)
    fun w (h : w.extractLsb' 9 3 = 0b011#3) => by simp only [decodeBranch, h, fieldImm9]

theorem rowDecodes_brn : rowDecodes 0xFE00#16 0x0800#16 (fun w => .brn (w.extractLsb' 0 9)) :=
  rowDecodes_of_decodeBranch (by decide)
    fun w (h : w.extractLsb' 9 3 = 0b100#3) => by simp only [decodeBranch, h, fieldImm9]

theorem rowDecodes_brnp : rowDecodes 0xFE00#16 0x0A00#16 (fun w => .brnp (w.extractLsb' 0 9)) :=
  rowDecodes_of_decodeBranch (by decide)
    fun w (h : w.extractLsb' 9 3 = 0b101#3) => by simp only [decodeBranch, h, fieldImm9]

theorem rowDecodes_brnz : rowDecodes 0xFE00#16 0x0C00#16 (fun w => .brnz (w.extractLsb' 0 9)) :=
  rowDecodes_of_decodeBranch (by decide)
    fun w (h : w.extractLsb' 9 3 = 0b110#3) => by simp only [decodeBranch, h, fieldImm9]

theorem rowDecodes_brnzp : rowDecodes 0xFE00#16 0x0E00#16 (fun w => .brnzp (w.extractLsb' 0 9)) :=
  rowDecodes_of_decodeBranch (by decide)
    fun w (h : w.extractLsb' 9 3 = 0b111#3) => by simp only [decodeBranch, h, fieldImm9]

/-! ## Opcode 0010 -/

/-- A row of opcode 0010 with its selector I[8:7] fixed decodes as `decodeCompare` does under this selector. -/
theorem rowDecodes_of_decodeCompare {bits : Word} {f : Word → Instr}
    (hop : bits.extractLsb' 15 1 = 0b0#1 ∧ bits.extractLsb' 12 3 = 0b010#3)
    (hf : ∀ w : Word, w.extractLsb' 7 2 = bits.extractLsb' 7 2 → decodeCompare w = f w) :
    rowDecodes 0xF180#16 bits f := by
  obtain ⟨h15, h12⟩ := hop
  exact rowDecodes_of_family (by decide)
    (fun w e15 e12 => decode_of_compare_opcode (e15.trans h15) (e12.trans h12))
    (fun w hrow => hf w (field_of_row hrow 7 2 (by decide)))

theorem rowDecodes_cmp : rowDecodes 0xF180#16 0x2000#16 (fun w => .cmp (w.extractLsb' 9 3) (w.extractLsb' 0 3)) :=
  rowDecodes_of_decodeCompare (by decide)
    fun w (h : w.extractLsb' 7 2 = 0b00#2) => by simp only [decodeCompare, h, fieldD, fieldT]

theorem rowDecodes_cmpu : rowDecodes 0xF180#16 0x2080#16 (fun w => .cmpu (w.extractLsb' 9 3) (w.extractLsb' 0 3)) :=
  rowDecodes_of_decodeCompare (by decide)
    fun w (h : w.extractLsb' 7 2 = 0b01#2) => by simp only [decodeCompare, h, fieldD, fieldT]

theorem rowDecodes_cmpi : rowDecodes 0xF180#16 0x2100#16 (fun w => .cmpi (w.extractLsb' 9 3) (w.extractLsb' 0 7)) :=
  rowDecodes_of_decodeCompare (by decide)
    fun w (h : w.extractLsb' 7 2 = 0b10#2) => by simp only [decodeCompare, h, fieldD, fieldImm7]

theorem rowDecodes_cmpiu : rowDecodes 0xF180#16 0x2180#16 (fun w => .cmpiu (w.extractLsb' 9 3) (w.extractLsb' 0 7)) :=
  rowDecodes_of_decodeCompare (by decide)
    fun w (h : w.extractLsb' 7 2 = 0b11#2) => by simp only [decodeCompare, h, fieldD, fieldImm7]

/-! ## Opcode 0100 -/

theorem rowDecodes_jsrr : rowDecodes 0xF800#16 0x4000#16 (fun w => .jsrr (w.extractLsb' 6 3)) :=
  rowDecodes_of_family (by decide) (fun _ => decode_of_jsr_opcode) fun w hrow => by
    have h : w.extractLsb' 11 1 = 0b0#1 := field_of_row hrow 11 1 (by decide)
    simp only [decodeJsr, h, fieldS]

theorem rowDecodes_jsr : rowDecodes 0xF800#16 0x4800#16 (fun w => .jsr (w.extractLsb' 0 11)) :=
  rowDecodes_of_family (by decide) (fun _ => decode_of_jsr_opcode) fun w hrow => by
    have h : w.extractLsb' 11 1 = 0b1#1 := field_of_row hrow 11 1 (by decide)
    simp only [decodeJsr, h, fieldImm11]

/-! ## Opcode 1101 -/

theorem rowDecodes_hiconst :
    rowDecodes 0xF100#16 0xD100#16 (fun w => .hiconst (w.extractLsb' 9 3) (w.extractLsb' 0 8)) :=
  rowDecodes_of_family (by decide) (fun _ => decode_of_hiconst_opcode) fun w hrow => by
    have h : w.extractLsb' 8 1 = 0b1#1 := field_of_row hrow 8 1 (by decide)
    simp only [decodeHiconst, h, fieldD, fieldUimm8]

theorem rowDecodes_illegal1101 : rowDecodes 0xF100#16 0xD000#16 (fun w => .illegal1101 w) :=
  rowDecodes_of_family (by decide) (fun _ => decode_of_hiconst_opcode) fun w hrow => by
    have h : w.extractLsb' 8 1 = 0b0#1 := field_of_row hrow 8 1 (by decide)
    simp only [decodeHiconst, h]

/-! ## Rows of the families above -/

theorem rowDecodes_div :
    rowDecodes 0xF038#16 0x1018#16 (fun w => .div (w.extractLsb' 9 3) (w.extractLsb' 6 3) (w.extractLsb' 0 3)) :=
  rowDecodes_of_decodeArith (by decide)
    fun w (h5 : w.extractLsb' 5 1 = 0b0#1) (h3 : w.extractLsb' 3 2 = 0b11#2) => by
      simp only [decodeArith, h5, h3, fieldD, fieldS, fieldT]

theorem rowDecodes_addi :
    rowDecodes 0xF020#16 0x1020#16 (fun w => .addi (w.extractLsb' 9 3) (w.extractLsb' 6 3) (w.extractLsb' 0 5)) :=
  rowDecodes_of_family (by decide) (fun _ => decode_of_arith_opcode) fun w hrow => by
    have h : w.extractLsb' 5 1 = 0b1#1 := field_of_row hrow 5 1 (by decide)
    simp only [decodeArith, h, fieldD, fieldS, fieldImm5]

theorem rowDecodes_not : rowDecodes 0xF038#16 0x5008#16 (fun w => .not (w.extractLsb' 9 3) (w.extractLsb' 6 3)) :=
  rowDecodes_of_decodeLogic (by decide) (by decide) fun w hrow => by
    have h5 : w.extractLsb' 5 1 = 0b0#1 := field_of_row hrow 5 1 (by decide)
    have h3 : w.extractLsb' 3 2 = 0b01#2 := field_of_row hrow 3 2 (by decide)
    simp only [decodeLogic, h5, h3, fieldD, fieldS]

theorem rowDecodes_mod :
    rowDecodes 0xF030#16 0xA030#16 (fun w => .mod (w.extractLsb' 9 3) (w.extractLsb' 6 3) (w.extractLsb' 0 3)) :=
  rowDecodes_of_decodeShift (by decide)
    fun w (h : w.extractLsb' 4 2 = 0b11#2) => by simp only [decodeShift, h, fieldD, fieldS, fieldT]

/-! ## Opcodes of one row -/

/-- An opcode that one instruction has to itself: its row decodes as `decode` does under the opcode. -/
theorem rowDecodes_of_opcode {bits : Word} {f : Word → Instr}
    (hop : ∀ w : Word, w.extractLsb' 15 1 = bits.extractLsb' 15 1 →
      w.extractLsb' 12 3 = bits.extractLsb' 12 3 → decode w = f w) :
    rowDecodes 0xF000#16 bits f :=
  rowDecodes_of_family (by decide) hop fun _ _ => rfl

theorem rowDecodes_ldr :
    rowDecodes 0xF000#16 0x6000#16 (fun w => .ldr (w.extractLsb' 9 3) (w.extractLsb' 6 3) (w.extractLsb' 0 6)) :=
  rowDecodes_of_opcode
    fun w (h15 : w.extractLsb' 15 1 = 0b0#1) (h12 : w.extractLsb' 12 3 = 0b110#3) => by
      simp only [decode, h15, h12, fieldD, fieldS, fieldImm6]

theorem rowDecodes_str :
    rowDecodes 0xF000#16 0x7000#16 (fun w => .str (w.extractLsb' 9 3) (w.extractLsb' 6 3) (w.extractLsb' 0 6)) :=
  rowDecodes_of_opcode
    fun w (h15 : w.extractLsb' 15 1 = 0b0#1) (h12 : w.extractLsb' 12 3 = 0b111#3) => by
      simp only [decode, h15, h12, fieldD, fieldS, fieldImm6]

theorem rowDecodes_rti : rowDecodes 0xF000#16 0x8000#16 (fun _ => .rti) :=
  rowDecodes_of_opcode
    fun w (h15 : w.extractLsb' 15 1 = 0b1#1) (h12 : w.extractLsb' 12 3 = 0b000#3) => by
      simp only [decode, h15, h12]

theorem rowDecodes_trap : rowDecodes 0xF000#16 0xF000#16 (fun w => .trap (w.extractLsb' 0 8)) :=
  rowDecodes_of_opcode
    fun w (h15 : w.extractLsb' 15 1 = 0b1#1) (h12 : w.extractLsb' 12 3 = 0b111#3) => by
      simp only [decode, h15, h12, fieldUimm8]

theorem rowDecodes_illegal0011 : rowDecodes 0xF000#16 0x3000#16 (fun w => .illegal0011 w) :=
  rowDecodes_of_opcode
    fun w (h15 : w.extractLsb' 15 1 = 0b0#1) (h12 : w.extractLsb' 12 3 = 0b011#3) => by
      simp only [decode, h15, h12]

theorem rowDecodes_illegal1011 : rowDecodes 0xF000#16 0xB000#16 (fun w => .illegal1011 w) :=
  rowDecodes_of_opcode
    fun w (h15 : w.extractLsb' 15 1 = 0b1#1) (h12 : w.extractLsb' 12 3 = 0b011#3) => by
      simp only [decode, h15, h12]

theorem rowDecodes_illegal1110 : rowDecodes 0xF000#16 0xE000#16 (fun w => .illegal1110 w) :=
  rowDecodes_of_opcode
    fun w (h15 : w.extractLsb' 15 1 = 0b1#1) (h12 : w.extractLsb' 12 3 = 0b110#3) => by
      simp only [decode, h15, h12]

end Sys2Proof.Machine
end

section
/-! PROOFS. The encoder and the decoder (30_encoding.md R60 to R70): decoding the encoding of a well-formed
instruction gives it back. -/

namespace Sys2Proof.Machine

open Sys2Proof.Claims

/-! ## The fields of an encoded word are the operands -/

theorem fieldImm9_encodeBr (nzp : BitVec 3) (imm9 : BitVec 9) : (encodeBr nzp imm9).extractLsb' 0 9 = imm9 := by
  simp (disch := decide) only [encodeBr, BitVec.extractLsb'_append_eq_of_add_le, BitVec.extractLsb'_eq_self]

theorem fields_encodeRRR (op : BitVec 4) (sub : BitVec 2) (d s t : Reg) :
    (encodeRRR op sub d s t).extractLsb' 9 3 = d ∧
      (encodeRRR op sub d s t).extractLsb' 6 3 = s ∧
      (encodeRRR op sub d s t).extractLsb' 0 3 = t := by
  simp (disch := decide) only [encodeRRR, BitVec.extractLsb'_append_eq_of_le, BitVec.extractLsb'_append_eq_of_add_le,
    BitVec.extractLsb'_eq_self, Nat.reduceSub, and_self]

theorem fields_encodeRRI5 (op : BitVec 4) (d s : Reg) (imm5 : BitVec 5) :
    (encodeRRI5 op d s imm5).extractLsb' 9 3 = d ∧
      (encodeRRI5 op d s imm5).extractLsb' 6 3 = s ∧
      (encodeRRI5 op d s imm5).extractLsb' 0 5 = imm5 := by
  simp (disch := decide) only [encodeRRI5, BitVec.extractLsb'_append_eq_of_le, BitVec.extractLsb'_append_eq_of_add_le,
    BitVec.extractLsb'_eq_self, Nat.reduceSub, and_self]

theorem fields_encodeCmpR (sub : BitVec 1) (s t : Reg) :
    (encodeCmpR sub s t).extractLsb' 9 3 = s ∧ (encodeCmpR sub s t).extractLsb' 0 3 = t := by
  simp (disch := decide) only [encodeCmpR, BitVec.extractLsb'_append_eq_of_le, BitVec.extractLsb'_append_eq_of_add_le,
    BitVec.extractLsb'_eq_self, Nat.reduceSub, and_self]

theorem fields_encodeCmpI (sub : BitVec 1) (s : Reg) (imm7 : BitVec 7) :
    (encodeCmpI sub s imm7).extractLsb' 9 3 = s ∧ (encodeCmpI sub s imm7).extractLsb' 0 7 = imm7 := by
  simp (disch := decide) only [encodeCmpI, BitVec.extractLsb'_append_eq_of_le, BitVec.extractLsb'_append_eq_of_add_le,
    BitVec.extractLsb'_eq_self, Nat.reduceSub, and_self]

theorem fieldS_encodeJR (op : BitVec 4) (s : Reg) : (encodeJR op s).extractLsb' 6 3 = s := by
  simp (disch := decide) only [encodeJR, BitVec.extractLsb'_append_eq_of_le, BitVec.extractLsb'_append_eq_of_add_le,
    BitVec.extractLsb'_eq_self, Nat.reduceSub]

theorem fieldImm11_encodeJI (op : BitVec 4) (imm11 : BitVec 11) : (encodeJI op imm11).extractLsb' 0 11 = imm11 := by
  simp (disch := decide) only [encodeJI, BitVec.extractLsb'_append_eq_of_add_le, BitVec.extractLsb'_eq_self]

theorem fields_encodeMem (op : BitVec 4) (r s : Reg) (imm6 : BitVec 6) :
    (encodeMem op r s imm6).extractLsb' 9 3 = r ∧
      (encodeMem op r s imm6).extractLsb' 6 3 = s ∧
      (encodeMem op r s imm6).extractLsb' 0 6 = imm6 := by
  simp (disch := decide) only [encodeMem, BitVec.extractLsb'_append_eq_of_le, BitVec.extractLsb'_append_eq_of_add_le,
    BitVec.extractLsb'_eq_self, Nat.reduceSub, and_self]

theorem fields_encodeShift (sub : BitVec 2) (d s : Reg) (uimm4 : BitVec 4) :
    (encodeShift sub d s uimm4).extractLsb' 9 3 = d ∧
      (encodeShift sub d s uimm4).extractLsb' 6 3 = s ∧
      (encodeShift sub d s uimm4).extractLsb' 0 4 = uimm4 := by
  simp (disch := decide) only [encodeShift, BitVec.extractLsb'_append_eq_of_le,
    BitVec.extractLsb'_append_eq_of_add_le, BitVec.extractLsb'_eq_self, Nat.reduceSub, and_self]

theorem fields_encode_const (d : Reg) (imm9 : BitVec 9) :
    (encode (.const d imm9)).extractLsb' 9 3 = d ∧ (encode (.const d imm9)).extractLsb' 0 9 = imm9 := by
  simp (disch := decide) only [encode, BitVec.extractLsb'_append_eq_of_le, BitVec.extractLsb'_append_eq_of_add_le,
    BitVec.extractLsb'_eq_self, Nat.reduceSub, and_self]

theorem fields_encode_mod (d s t : Reg) :
    (encode (.mod d s t)).extractLsb' 9 3 = d ∧
      (encode (.mod d s t)).extractLsb' 6 3 = s ∧
      (encode (.mod d s t)).extractLsb' 0 3 = t := by
  simp (disch := decide) only [encode, BitVec.extractLsb'_append_eq_of_le, BitVec.extractLsb'_append_eq_of_add_le,
    BitVec.extractLsb'_eq_self, Nat.reduceSub, and_self]

theorem fields_encode_hiconst (d : Reg) (uimm8 : BitVec 8) :
    (encode (.hiconst d uimm8)).extractLsb' 9 3 = d ∧ (encode (.hiconst d uimm8)).extractLsb' 0 8 = uimm8 := by
  simp (disch := decide) only [encode, BitVec.extractLsb'_append_eq_of_le, BitVec.extractLsb'_append_eq_of_add_le,
    BitVec.extractLsb'_eq_self, Nat.reduceSub, and_self]

theorem fieldUimm8_encode_trap (uimm8 : BitVec 8) : (encode (.trap uimm8)).extractLsb' 0 8 = uimm8 := by
  simp (disch := decide) only [encode, BitVec.extractLsb'_append_eq_of_add_le, BitVec.extractLsb'_eq_self]

/-! ## The round trip -/

/-- The word of an instruction lies in the instruction's row, so it decodes as the words of the row do. -/
theorem decode_encode_of_row {i : Instr} {f : Word → Instr} (hrow : rowDecodes (rowOf i).1 (rowOf i).2 f)
    (hword : encode i &&& (rowOf i).1 = (rowOf i).2) (hf : f (encode i) = i) : decode (encode i) = i :=
  (hrow (encode i) hword).trans hf

/-- The word of a well-formed instruction lies in the instruction's row (Laws/PerInstr.lean, all constructors). -/
theorem encode_inRow (i : Instr) (hwf : i.wellFormed = true) : encode i &&& (rowOf i).1 = (rowOf i).2 := by
  cases i with
  | nop imm9 => exact Laws.EncodeInRow.nop imm9 hwf
  | brp imm9 => exact Laws.EncodeInRow.brp imm9 hwf
  | brz imm9 => exact Laws.EncodeInRow.brz imm9 hwf
  | brzp imm9 => exact Laws.EncodeInRow.brzp imm9 hwf
  | brn imm9 => exact Laws.EncodeInRow.brn imm9 hwf
  | brnp imm9 => exact Laws.EncodeInRow.brnp imm9 hwf
  | brnz imm9 => exact Laws.EncodeInRow.brnz imm9 hwf
  | brnzp imm9 => exact Laws.EncodeInRow.brnzp imm9 hwf
  | add d s t => exact Laws.EncodeInRow.add d s t hwf
  | mul d s t => exact Laws.EncodeInRow.mul d s t hwf
  | sub d s t => exact Laws.EncodeInRow.sub d s t hwf
  | div d s t => exact Laws.EncodeInRow.div d s t hwf
  | addi d s imm5 => exact Laws.EncodeInRow.addi d s imm5 hwf
  | cmp s t => exact Laws.EncodeInRow.cmp s t hwf
  | cmpu s t => exact Laws.EncodeInRow.cmpu s t hwf
  | cmpi s imm7 => exact Laws.EncodeInRow.cmpi s imm7 hwf
  | cmpiu s uimm7 => exact Laws.EncodeInRow.cmpiu s uimm7 hwf
  | jsrr s => exact Laws.EncodeInRow.jsrr s hwf
  | jsr imm11 => exact Laws.EncodeInRow.jsr imm11 hwf
  | and d s t => exact Laws.EncodeInRow.and d s t hwf
  | not d s => exact Laws.EncodeInRow.not d s hwf
  | or d s t => exact Laws.EncodeInRow.or d s t hwf
  | xor d s t => exact Laws.EncodeInRow.xor d s t hwf
  | andi d s imm5 => exact Laws.EncodeInRow.andi d s imm5 hwf
  | ldr d s imm6 => exact Laws.EncodeInRow.ldr d s imm6 hwf
  | str t s imm6 => exact Laws.EncodeInRow.str t s imm6 hwf
  | rti => exact Laws.EncodeInRow.rti hwf
  | const d imm9 => exact Laws.EncodeInRow.const d imm9 hwf
  | sll d s uimm4 => exact Laws.EncodeInRow.sll d s uimm4 hwf
  | sra d s uimm4 => exact Laws.EncodeInRow.sra d s uimm4 hwf
  | srl d s uimm4 => exact Laws.EncodeInRow.srl d s uimm4 hwf
  | mod d s t => exact Laws.EncodeInRow.mod d s t hwf
  | jmpr s => exact Laws.EncodeInRow.jmpr s hwf
  | jmp imm11 => exact Laws.EncodeInRow.jmp imm11 hwf
  | hiconst d uimm8 => exact Laws.EncodeInRow.hiconst d uimm8 hwf
  | trap uimm8 => exact Laws.EncodeInRow.trap uimm8 hwf
  | illegal0011 w => exact Laws.EncodeInRow.illegal0011 w hwf
  | illegal1011 w => exact Laws.EncodeInRow.illegal1011 w hwf
  | illegal1110 w => exact Laws.EncodeInRow.illegal1110 w hwf
  | illegal1101 w => exact Laws.EncodeInRow.illegal1101 w hwf

/-- Settles O6: the word lies in the instruction's row, the row decodes to the instruction's constructor, and the
fields of the word are the operands. -/
theorem decodeOfEncodeIsTheInstruction : Obligations.DecodeOfEncodeIsTheInstruction := by
  intro i hwf
  have hword := encode_inRow i hwf
  obtain ⟨hadd, hmul, hsub, -⟩ := addMulSubAreModulo65536
  obtain ⟨hconst, -⟩ := constSetsItsSignedImmediate
  obtain ⟨hsll, hsra, hsrl, -⟩ := shiftsMultiplyAndDivideByPowersOfTwo
  obtain ⟨hand, hor, hxor, handi, -⟩ := logicalResultsAreBitwise
  obtain ⟨hjmpr, hjmp, -⟩ := jumpsChangeOnlyPc
  cases i with
  | nop => exact decode_encode_of_row rowDecodes_nop hword (by simp only [encode, fieldImm9_encodeBr])
  | brp => exact decode_encode_of_row rowDecodes_brp hword (by simp only [encode, fieldImm9_encodeBr])
  | brz => exact decode_encode_of_row rowDecodes_brz hword (by simp only [encode, fieldImm9_encodeBr])
  | brzp => exact decode_encode_of_row rowDecodes_brzp hword (by simp only [encode, fieldImm9_encodeBr])
  | brn => exact decode_encode_of_row rowDecodes_brn hword (by simp only [encode, fieldImm9_encodeBr])
  | brnp => exact decode_encode_of_row rowDecodes_brnp hword (by simp only [encode, fieldImm9_encodeBr])
  | brnz => exact decode_encode_of_row rowDecodes_brnz hword (by simp only [encode, fieldImm9_encodeBr])
  | brnzp => exact decode_encode_of_row rowDecodes_brnzp hword (by simp only [encode, fieldImm9_encodeBr])
  | add => exact decode_encode_of_row hadd hword (by simp only [encode, fields_encodeRRR])
  | mul => exact decode_encode_of_row hmul hword (by simp only [encode, fields_encodeRRR])
  | sub => exact decode_encode_of_row hsub hword (by simp only [encode, fields_encodeRRR])
  | div => exact decode_encode_of_row rowDecodes_div hword (by simp only [encode, fields_encodeRRR])
  | addi => exact decode_encode_of_row rowDecodes_addi hword (by simp only [encode, fields_encodeRRI5])
  | cmp => exact decode_encode_of_row rowDecodes_cmp hword (by simp only [encode, fields_encodeCmpR])
  | cmpu => exact decode_encode_of_row rowDecodes_cmpu hword (by simp only [encode, fields_encodeCmpR])
  | cmpi => exact decode_encode_of_row rowDecodes_cmpi hword (by simp only [encode, fields_encodeCmpI])
  | cmpiu => exact decode_encode_of_row rowDecodes_cmpiu hword (by simp only [encode, fields_encodeCmpI])
  | jsrr => exact decode_encode_of_row rowDecodes_jsrr hword (by simp only [encode, fieldS_encodeJR])
  | jsr => exact decode_encode_of_row rowDecodes_jsr hword (by simp only [encode, fieldImm11_encodeJI])
  | and => exact decode_encode_of_row hand hword (by simp only [encode, fields_encodeRRR])
  | not => exact decode_encode_of_row rowDecodes_not hword (by simp only [encode, fields_encodeRRR])
  | or => exact decode_encode_of_row hor hword (by simp only [encode, fields_encodeRRR])
  | xor => exact decode_encode_of_row hxor hword (by simp only [encode, fields_encodeRRR])
  | andi => exact decode_encode_of_row handi hword (by simp only [encode, fields_encodeRRI5])
  | ldr => exact decode_encode_of_row rowDecodes_ldr hword (by simp only [encode, fields_encodeMem])
  | str => exact decode_encode_of_row rowDecodes_str hword (by simp only [encode, fields_encodeMem])
  | rti => exact decode_encode_of_row rowDecodes_rti hword rfl
  | const => exact decode_encode_of_row hconst hword (by simp only [fields_encode_const])
  | sll => exact decode_encode_of_row hsll hword (by simp only [encode, fields_encodeShift])
  | sra => exact decode_encode_of_row hsra hword (by simp only [encode, fields_encodeShift])
  | srl => exact decode_encode_of_row hsrl hword (by simp only [encode, fields_encodeShift])
  | mod => exact decode_encode_of_row rowDecodes_mod hword (by simp only [fields_encode_mod])
  | jmpr => exact decode_encode_of_row hjmpr hword (by simp only [encode, fieldS_encodeJR])
  | jmp => exact decode_encode_of_row hjmp hword (by simp only [encode, fieldImm11_encodeJI])
  | hiconst => exact decode_encode_of_row rowDecodes_hiconst hword (by simp only [fields_encode_hiconst])
  | trap => exact decode_encode_of_row rowDecodes_trap hword (by simp only [fieldUimm8_encode_trap])
  | illegal0011 => exact decode_encode_of_row rowDecodes_illegal0011 hword rfl
  | illegal1011 => exact decode_encode_of_row rowDecodes_illegal1011 hword rfl
  | illegal1110 => exact decode_encode_of_row rowDecodes_illegal1110 hword rfl
  | illegal1101 => exact decode_encode_of_row rowDecodes_illegal1101 hword rfl

end Sys2Proof.Machine
end

section
/-! PROOFS. Every word lies in exactly one row of opcode_table.json (30_encoding.md R70), the row of the instruction
it decodes to, and the bits that a row ignores change nothing (R66; D6, log 8). -/

namespace Sys2Proof.Machine

open Sys2Proof.Claims

/-! ## From the fields a decoder branches on to the row -/

/-- The bits of a word that the field of `len` bits from bit `lo` covers. -/
def fieldMask (lo len : Nat) : Word := (BitVec.allOnes len).setWidth 16 <<< lo

theorem fieldMask_getLsbD (lo len k : Nat) :
    (fieldMask lo len).getLsbD k = (decide (k < 16) && !decide (k < lo) && decide (k - lo < len)) := by
  simp only [fieldMask, BitVec.getLsbD_shiftLeft, BitVec.getLsbD_setWidth, BitVec.getLsbD_allOnes]
  by_cases hk : k < 16
  · have : k - lo < 16 := by omega
    simp [hk, this]
  · simp [hk]

/-- Words that read alike in a field agree under its mask: the converse of `field_of_row`. -/
theorem and_fieldMask_of_field {w bits : Word} {lo len : Nat}
    (h : w.extractLsb' lo len = bits.extractLsb' lo len) :
    w &&& fieldMask lo len = bits &&& fieldMask lo len := by
  apply BitVec.eq_of_getLsbD_eq
  intro k _
  rw [BitVec.getLsbD_and, BitVec.getLsbD_and, fieldMask_getLsbD]
  by_cases hlo : k < lo
  · simp [hlo]
  · by_cases hlen : k - lo < len
    · have hbit := congrArg (fun v => v.getLsbD (k - lo)) h
      simp only [BitVec.getLsbD_extractLsb', hlen, decide_true, Bool.true_and] at hbit
      rw [show k = lo + (k - lo) by omega, hbit]
    · simp [hlen]

/-- The mask of several fields, each given by its low bit and its length. -/
def fieldsMask (fields : List (Nat × Nat)) : Word :=
  match fields with
  | [] => 0#16
  | f :: rest => fieldMask f.1 f.2 ||| fieldsMask rest

/-- Two words read alike in every one of the fields. -/
def readAlike (w bits : Word) (fields : List (Nat × Nat)) : Prop :=
  match fields with
  | [] => True
  | f :: rest => w.extractLsb' f.1 f.2 = bits.extractLsb' f.1 f.2 ∧ readAlike w bits rest

theorem and_fieldsMask_of_readAlike {w bits : Word} {fields : List (Nat × Nat)}
    (h : readAlike w bits fields) : w &&& fieldsMask fields = bits &&& fieldsMask fields := by
  induction fields with
  | nil => simp [fieldsMask]
  | cons f rest ih =>
    obtain ⟨hf, hrest⟩ := h
    rw [fieldsMask, BitVec.and_or_distrib_left, and_fieldMask_of_field hf, ih hrest,
      ← BitVec.and_or_distrib_left]

theorem rowIndex_lt (i : Instr) : rowIndex i < 40 := by
  cases i <;> simp [rowIndex]

/-- The bits of a row lie under its mask. -/
theorem rowOf_bits_and_mask (i : Instr) : (rowOf i).2 &&& (rowOf i).1 = (rowOf i).2 := by
  have hrows : ∀ k, k < 40 → (opcodeTable.getD k (0x0000#16, 0xFFFF#16)).2 &&&
      (opcodeTable.getD k (0x0000#16, 0xFFFF#16)).1 = (opcodeTable.getD k (0x0000#16, 0xFFFF#16)).2 := by
    decide
  exact hrows (rowIndex i) (rowIndex_lt i)

/-- A word lies in a row when it reads as the row's bits do in fields that together make up the row's mask. -/
theorem inRow_of_fields {w : Word} {i : Instr} (fields : List (Nat × Nat))
    (hmask : (rowOf i).1 = fieldsMask fields) (hfields : readAlike w (rowOf i).2 fields) :
    w &&& (rowOf i).1 = (rowOf i).2 := by
  rw [← rowOf_bits_and_mask i, hmask]
  exact and_fieldsMask_of_readAlike hfields

/-- `i` is well-formed, and `w` lies in its row. -/
def LiesInRowOf (w : Word) (i : Instr) : Prop := i.wellFormed = true ∧ w &&& (rowOf i).1 = (rowOf i).2

theorem liesInRowOf_of_fields {w : Word} {i : Instr} (fields : List (Nat × Nat)) (hwf : i.wellFormed = true)
    (hmask : (rowOf i).1 = fieldsMask fields) (hfields : readAlike w (rowOf i).2 fields) :
    LiesInRowOf w i :=
  ⟨hwf, inRow_of_fields fields hmask hfields⟩

/-- An illegal row's instruction is well-formed because the word lies in the row. -/
theorem illegal_liesInRowOf {w : Word} {i : Instr} (fields : List (Nat × Nat))
    (hwf : i.wellFormed = inRow (rowOf i).1 (rowOf i).2 w)
    (hmask : (rowOf i).1 = fieldsMask fields) (hfields : readAlike w (rowOf i).2 fields) :
    LiesInRowOf w i := by
  have hrow := inRow_of_fields fields hmask hfields
  exact ⟨hwf.trans (beq_iff_eq.mpr hrow), hrow⟩

theorem bitVec1_cases : ∀ x : BitVec 1, x = 0b0#1 ∨ x = 0b1#1 := by decide

theorem bitVec2_cases : ∀ x : BitVec 2, x = 0b00#2 ∨ x = 0b01#2 ∨ x = 0b10#2 ∨ x = 0b11#2 := by decide

theorem bitVec3_cases : ∀ x : BitVec 3, x = 0b000#3 ∨ x = 0b001#3 ∨ x = 0b010#3 ∨ x = 0b011#3 ∨
    x = 0b100#3 ∨ x = 0b101#3 ∨ x = 0b110#3 ∨ x = 0b111#3 := by decide

/-! ## Every word lies in the row of its instruction -/

section

variable {w : Word}

theorem decodeBranch_liesInRow (h15 : w.extractLsb' 15 1 = 0b0#1) (h12 : w.extractLsb' 12 3 = 0b000#3) :
    LiesInRowOf w (decodeBranch w) := by
  obtain h9 | h9 | h9 | h9 | h9 | h9 | h9 | h9 := bitVec3_cases (w.extractLsb' 9 3)
  all_goals
    simp only [decodeBranch, h9]
    exact liesInRowOf_of_fields [(15, 1), (12, 3), (9, 3)] rfl rfl
      (by simp [h15, h12, h9, readAlike, rowOf, rowIndex, opcodeTable])

theorem decodeArith_liesInRow (h15 : w.extractLsb' 15 1 = 0b0#1) (h12 : w.extractLsb' 12 3 = 0b001#3) :
    LiesInRowOf w (decodeArith w) := by
  obtain h5 | h5 := bitVec1_cases (w.extractLsb' 5 1)
  · obtain h3 | h3 | h3 | h3 := bitVec2_cases (w.extractLsb' 3 2)
    all_goals
      simp only [decodeArith, h5, h3]
      exact liesInRowOf_of_fields [(15, 1), (12, 3), (5, 1), (3, 2)] rfl rfl
        (by simp [h15, h12, h5, h3, readAlike, rowOf, rowIndex, opcodeTable])
  · simp only [decodeArith, h5]
    exact liesInRowOf_of_fields [(15, 1), (12, 3), (5, 1)] rfl rfl
      (by simp [h15, h12, h5, readAlike, rowOf, rowIndex, opcodeTable])

theorem decodeCompare_liesInRow (h15 : w.extractLsb' 15 1 = 0b0#1) (h12 : w.extractLsb' 12 3 = 0b010#3) :
    LiesInRowOf w (decodeCompare w) := by
  obtain h7 | h7 | h7 | h7 := bitVec2_cases (w.extractLsb' 7 2)
  all_goals
    simp only [decodeCompare, h7]
    exact liesInRowOf_of_fields [(15, 1), (12, 3), (7, 2)] rfl rfl
      (by simp [h15, h12, h7, readAlike, rowOf, rowIndex, opcodeTable])

theorem decodeJsr_liesInRow (h15 : w.extractLsb' 15 1 = 0b0#1) (h12 : w.extractLsb' 12 3 = 0b100#3) :
    LiesInRowOf w (decodeJsr w) := by
  obtain h11 | h11 := bitVec1_cases (w.extractLsb' 11 1)
  all_goals
    simp only [decodeJsr, h11]
    exact liesInRowOf_of_fields [(15, 1), (12, 3), (11, 1)] rfl rfl
      (by simp [h15, h12, h11, readAlike, rowOf, rowIndex, opcodeTable])

theorem decodeLogic_liesInRow (h15 : w.extractLsb' 15 1 = 0b0#1) (h12 : w.extractLsb' 12 3 = 0b101#3) :
    LiesInRowOf w (decodeLogic w) := by
  obtain h5 | h5 := bitVec1_cases (w.extractLsb' 5 1)
  · obtain h3 | h3 | h3 | h3 := bitVec2_cases (w.extractLsb' 3 2)
    all_goals
      simp only [decodeLogic, h5, h3]
      exact liesInRowOf_of_fields [(15, 1), (12, 3), (5, 1), (3, 2)] rfl rfl
        (by simp [h15, h12, h5, h3, readAlike, rowOf, rowIndex, opcodeTable])
  · simp only [decodeLogic, h5]
    exact liesInRowOf_of_fields [(15, 1), (12, 3), (5, 1)] rfl rfl
      (by simp [h15, h12, h5, readAlike, rowOf, rowIndex, opcodeTable])

theorem decodeShift_liesInRow (h15 : w.extractLsb' 15 1 = 0b1#1) (h12 : w.extractLsb' 12 3 = 0b010#3) :
    LiesInRowOf w (decodeShift w) := by
  obtain h4 | h4 | h4 | h4 := bitVec2_cases (w.extractLsb' 4 2)
  all_goals
    simp only [decodeShift, h4]
    exact liesInRowOf_of_fields [(15, 1), (12, 3), (4, 2)] rfl rfl
      (by simp [h15, h12, h4, readAlike, rowOf, rowIndex, opcodeTable])

theorem decodeJump_liesInRow (h15 : w.extractLsb' 15 1 = 0b1#1) (h12 : w.extractLsb' 12 3 = 0b100#3) :
    LiesInRowOf w (decodeJump w) := by
  obtain h11 | h11 := bitVec1_cases (w.extractLsb' 11 1)
  all_goals
    simp only [decodeJump, h11]
    exact liesInRowOf_of_fields [(15, 1), (12, 3), (11, 1)] rfl rfl
      (by simp [h15, h12, h11, readAlike, rowOf, rowIndex, opcodeTable])

theorem decodeHiconst_liesInRow (h15 : w.extractLsb' 15 1 = 0b1#1) (h12 : w.extractLsb' 12 3 = 0b101#3) :
    LiesInRowOf w (decodeHiconst w) := by
  obtain h8 | h8 := bitVec1_cases (w.extractLsb' 8 1)
  · simp only [decodeHiconst, h8]
    exact illegal_liesInRowOf [(15, 1), (12, 3), (8, 1)] rfl rfl
      (by simp [h15, h12, h8, readAlike, rowOf, rowIndex, opcodeTable])
  · simp only [decodeHiconst, h8]
    exact liesInRowOf_of_fields [(15, 1), (12, 3), (8, 1)] rfl rfl
      (by simp [h15, h12, h8, readAlike, rowOf, rowIndex, opcodeTable])

/-- Every word decodes to a well-formed instruction, and lies in that instruction's row. -/
theorem decode_liesInRow (w : Word) : LiesInRowOf w (decode w) := by
  obtain h15 | h15 := bitVec1_cases (w.extractLsb' 15 1)
  · obtain h12 | h12 | h12 | h12 | h12 | h12 | h12 | h12 := bitVec3_cases (w.extractLsb' 12 3)
    all_goals simp only [decode, h15, h12]
    · exact decodeBranch_liesInRow h15 h12
    · exact decodeArith_liesInRow h15 h12
    · exact decodeCompare_liesInRow h15 h12
    · exact illegal_liesInRowOf [(15, 1), (12, 3)] rfl rfl
        (by simp [h15, h12, readAlike, rowOf, rowIndex, opcodeTable])
    · exact decodeJsr_liesInRow h15 h12
    · exact decodeLogic_liesInRow h15 h12
    · exact liesInRowOf_of_fields [(15, 1), (12, 3)] rfl rfl
        (by simp [h15, h12, readAlike, rowOf, rowIndex, opcodeTable])
    · exact liesInRowOf_of_fields [(15, 1), (12, 3)] rfl rfl
        (by simp [h15, h12, readAlike, rowOf, rowIndex, opcodeTable])
  · obtain h12 | h12 | h12 | h12 | h12 | h12 | h12 | h12 := bitVec3_cases (w.extractLsb' 12 3)
    all_goals simp only [decode, h15, h12]
    · exact liesInRowOf_of_fields [(15, 1), (12, 3)] rfl rfl
        (by simp [h15, h12, readAlike, rowOf, rowIndex, opcodeTable])
    · exact liesInRowOf_of_fields [(15, 1), (12, 3)] rfl rfl
        (by simp [h15, h12, readAlike, rowOf, rowIndex, opcodeTable])
    · exact decodeShift_liesInRow h15 h12
    · exact illegal_liesInRowOf [(15, 1), (12, 3)] rfl rfl
        (by simp [h15, h12, readAlike, rowOf, rowIndex, opcodeTable])
    · exact decodeJump_liesInRow h15 h12
    · exact decodeHiconst_liesInRow h15 h12
    · exact illegal_liesInRowOf [(15, 1), (12, 3)] rfl rfl
        (by simp [h15, h12, readAlike, rowOf, rowIndex, opcodeTable])
    · exact liesInRowOf_of_fields [(15, 1), (12, 3)] rfl rfl
        (by simp [h15, h12, readAlike, rowOf, rowIndex, opcodeTable])

end

/-! ## No word lies in two rows -/

/-- Any two rows differ in a bit that both masks cover. -/
theorem rows_differ : opcodeTable.Pairwise (fun p q => p.1 &&& q.1 &&& (p.2 ^^^ q.2) ≠ 0#16) := by
  decide

/-- Two rows that one word lies in agree in the bits that both masks cover. -/
theorem rows_agree {w : Word} {p q : Word × Word} (hp : w &&& p.1 = p.2) (hq : w &&& q.1 = q.2) :
    p.1 &&& q.1 &&& (p.2 ^^^ q.2) = 0#16 := by
  rw [← hp, ← hq]
  apply BitVec.eq_of_getLsbD_eq
  intro k _
  simp only [BitVec.getLsbD_and, BitVec.getLsbD_xor, BitVec.getLsbD_zero]
  cases w.getLsbD k <;> cases p.1.getLsbD k <;> cases q.1.getLsbD k <;> rfl

theorem row_unique {w : Word} {j k : Nat} (hj : j < opcodeTable.length) (hk : k < opcodeTable.length)
    (hwj : w &&& opcodeTable[j].1 = opcodeTable[j].2) (hwk : w &&& opcodeTable[k].1 = opcodeTable[k].2) :
    j = k := by
  have hdiffer := List.pairwise_iff_getElem.mp rows_differ
  obtain hlt | heq | hlt := lt_trichotomy j k
  · exact absurd (rows_agree hwj hwk) (hdiffer j k hj hk hlt)
  · exact heq
  · exact absurd (rows_agree hwk hwj) (hdiffer k j hk hj hlt)

theorem rowOf_eq_getElem (i : Instr) : rowOf i = opcodeTable[rowIndex i]'(rowIndex_lt i) :=
  List.getD_eq_getElem _ _ (rowIndex_lt i)

/-- Settles O7: a word lies in the row of the instruction it decodes to, and any two rows differ in a bit they both
fix. -/
theorem everyWordIsInExactlyItsRow : Obligations.EveryWordIsInExactlyItsRow := by
  intro w
  obtain ⟨hwf, hrow⟩ := decode_liesInRow w
  rw [rowOf_eq_getElem] at hrow
  refine ⟨hwf, rowIndex_lt _, fun k hk => ?_⟩
  rw [List.getD_eq_getElem _ _ hk]
  constructor
  · exact fun hwk => row_unique hk (rowIndex_lt _) hwk hrow
  · rintro rfl
    exact hrow

/-! ## Bits that no row fixes and no operand reads -/

section

variable {w x : Word}

theorem and_flip {m : Word} (mask : Word) (h : mask &&& m = 0#16) : (w ^^^ (x &&& m)) &&& mask = w &&& mask := by
  apply BitVec.eq_of_getLsbD_eq
  intro k _
  have hk := congrArg (fun v => v.getLsbD k) h
  simp only [BitVec.getLsbD_and, BitVec.getLsbD_xor, BitVec.getLsbD_zero] at hk ⊢
  cases hm : m.getLsbD k
  · simp
  · simp only [hm, Bool.and_true] at hk
    simp [hk]

theorem field_flip {m : Word} (lo len : Nat) (h : m.extractLsb' lo len = 0#len) :
    (w ^^^ (x &&& m)).extractLsb' lo len = w.extractLsb' lo len := by
  rw [BitVec.extractLsb'_xor, BitVec.extractLsb'_and, h, BitVec.and_zero, BitVec.xor_zero]

/-- Bits that neither the mask of a row nor the fields its instruction reads cover can be flipped. -/
theorem decode_flip_of_row {mask bits : Word} {i : Instr} {f : Word → Instr} (m : Word)
    (hrow : rowDecodes mask bits f) (hw : w &&& mask = bits) (hi : decode w = i)
    (hm : mask &&& m = 0#16) (hf : f (w ^^^ (x &&& m)) = f w) : decode (w ^^^ (x &&& m)) = i :=
  calc decode (w ^^^ (x &&& m)) = f (w ^^^ (x &&& m)) := hrow _ ((and_flip mask hm).trans hw)
    _ = f w := hf
    _ = i := (hrow w hw).symm.trans hi

end

/-- Settles O8: the flipped bits lie outside the row's mask, so the word stays in its row, and outside the fields that
the row's instruction reads. The rows not named have no don't-care bit. -/
theorem dontCareBitsAreIgnored : Obligations.DontCareBitsAreIgnored := by
  intro w x
  obtain ⟨-, hw⟩ := decode_liesInRow w
  obtain ⟨hjmpr, -⟩ := jumpsChangeOnlyPc
  generalize hi : decode w = i at hw
  cases i with
  | cmp =>
    exact decode_flip_of_row 0x0078#16 rowDecodes_cmp hw hi (by decide)
      (congrArg₂ Instr.cmp (field_flip 9 3 (by decide)) (field_flip 0 3 (by decide)))
  | cmpu =>
    exact decode_flip_of_row 0x0078#16 rowDecodes_cmpu hw hi (by decide)
      (congrArg₂ Instr.cmpu (field_flip 9 3 (by decide)) (field_flip 0 3 (by decide)))
  | jsrr =>
    exact decode_flip_of_row 0x063F#16 rowDecodes_jsrr hw hi (by decide)
      (congrArg Instr.jsrr (field_flip 6 3 (by decide)))
  | jmpr =>
    exact decode_flip_of_row 0x063F#16 hjmpr hw hi (by decide) (congrArg Instr.jmpr (field_flip 6 3 (by decide)))
  | rti => exact decode_flip_of_row 0x0FFF#16 rowDecodes_rti hw hi (by decide) rfl
  | mod =>
    exact decode_flip_of_row 0x0008#16 rowDecodes_mod hw hi (by decide) (by
      rw [field_flip 9 3 (by decide), field_flip 6 3 (by decide), field_flip 0 3 (by decide)])
  | trap =>
    exact decode_flip_of_row 0x0F00#16 rowDecodes_trap hw hi (by decide)
      (congrArg Instr.trap (field_flip 0 8 (by decide)))
  | not =>
    exact decode_flip_of_row 0x0007#16 rowDecodes_not hw hi (by decide)
      (congrArg₂ Instr.not (field_flip 9 3 (by decide)) (field_flip 6 3 (by decide)))
  | _ => simpa [dontCare] using hi

end Sys2Proof.Machine
end

section
/-! PROOFS. What a step does to memory (20_memory.md section 5, 44_load_store.md): a word changes only by a legal STR,
never in a code region, and two canonical memories that read alike are one. -/

namespace Sys2Proof.Machine

open Sys2Proof.Claims

/-! ## Steps and memory -/

/-- A commit changes a word only by the store of a legal STR. -/
theorem commit_word_changed {i : Instr} {s : State} {w : Writes} {a : Word} (he : effect i s = .commits w)
    (h : (s.commit w).word a ≠ s.word a) :
    ∃ r b imm6, i = .str r b imm6 ∧ a = effectiveAddress (s.reg b) imm6 ∧
      (s.commit w).word a = s.reg r ∧ dataLegal s a := by
  rw [commit_word] at h ⊢
  obtain ⟨-, -, ⟨hd, -⟩ | ⟨d, b, imm6, -, -, hd⟩ | ⟨r, b, imm6, rfl, hc, hd⟩⟩ := effect_commits_cases he
  · exact absurd (by rw [hd]) h
  · exact absurd (by rw [hd]) h
  · rw [hd] at h ⊢
    by_cases ha : a = effectiveAddress (s.reg b) imm6
    · subst ha
      rw [check_store_eq_load, check_load_none_iff] at hc
      exact ⟨r, b, imm6, rfl, rfl, if_pos rfl, hc⟩
    · exact absurd (if_neg ha) h

/-- Settles O20: a fault leaves memory, and a commit changes only the word a legal STR stores. -/
theorem onlyStrChangesMemory : Obligations.OnlyStrChangesMemory := by
  intro s t a hstep h
  obtain ⟨-, ⟨c, -, rfl⟩ | ⟨-, ⟨w, he, rfl⟩ | ⟨r, -, rfl⟩⟩⟩ := step_cases hstep
  · exact absurd (State.latch_word s _ a) h
  · exact commit_word_changed he h
  · exact absurd (State.latch_word s r a) h

/-- Settles O19: a word that a step changes is one a data access may write, so it is in no code region. -/
theorem stepsNeverChangeCode : Obligations.StepsNeverChangeCode := by
  intro s t a hstep hcode
  by_contra h
  obtain ⟨-, -, -, -, -, -, hlegal⟩ := onlyStrChangesMemory s t a hstep h
  exact not_dataLegal_of_code hcode hlegal

/-- Settles O12: neither a commit nor a latched fault writes the parameters. -/
theorem stepKeepsTheParameters : Obligations.StepKeepsTheParameters := by
  intro s t hstep
  obtain ⟨-, ⟨c, -, rfl⟩ | ⟨-, ⟨w, -, rfl⟩ | ⟨r, -, rfl⟩⟩⟩ := step_cases hstep
  · exact State.latch_params s _
  · exact State.commit_params s w
  · exact State.latch_params s r

/-! ## Canonical memories -/

/-- In a list with rising addresses a listed word is the one read at its address. -/
theorem Memory.lookup_of_mem {m : Memory} (hm : m.Pairwise (fun c d => c.1 < d.1)) {a : Nat} {v : Word}
    (h : (a, v) ∈ m) : Memory.lookup m a = v := by
  induction m with
  | nil => exact absurd h List.not_mem_nil
  | cons e rest ih =>
    obtain ⟨b, x⟩ := e
    obtain ⟨hb, hrest⟩ := List.pairwise_cons.mp hm
    rw [Memory.lookup]
    obtain heq | h := List.mem_cons.mp h
    · obtain ⟨rfl, rfl⟩ := Prod.mk.inj heq
      exact if_pos rfl
    · have hlt : b < a := hb (a, v) h
      rw [if_neg (by omega), ih hrest h]

theorem Memory.mem_of_lookup {m : Memory} {a : Nat} (h : Memory.lookup m a ≠ unlistedWord) :
    (a, Memory.lookup m a) ∈ m := by
  induction m with
  | nil => exact absurd rfl h
  | cons e rest ih =>
    obtain ⟨b, x⟩ := e
    rw [Memory.lookup] at h ⊢
    by_cases hb : b = a
    · rw [if_pos hb, hb]
      exact List.mem_cons_self
    · rw [if_neg hb] at h ⊢
      exact List.mem_cons_of_mem _ (ih h)

/-- What a canonical memory lists is what another that reads alike lists. -/
theorem Memory.mem_of_read_eq {m n : Memory} (hm : m.wf) (h : ∀ a : Word, Memory.read m a = Memory.read n a)
    {c : Cell} (hc : c ∈ m) : c ∈ n := by
  obtain ⟨a, v⟩ := c
  obtain ⟨hsorted, hcells⟩ := hm
  obtain ⟨hlt, hv⟩ := hcells (a, v) hc
  have hread := h (BitVec.ofNat 16 a)
  simp only [Memory.read, BitVec.toNat_ofNat, Nat.mod_eq_of_lt hlt, Memory.lookup_of_mem hsorted hc] at hread
  rw [hread] at hv ⊢
  exact Memory.mem_of_lookup hv

/-- Settles O11: the two lists have the same cells, each in the one order of rising addresses. -/
theorem canonicalMemoriesThatReadAlikeAreEqual : Obligations.CanonicalMemoriesThatReadAlikeAreEqual := by
  intro m n hm hn h
  have hmem : ∀ c, c ∈ m ↔ c ∈ n := fun c =>
    ⟨Memory.mem_of_read_eq hm h, Memory.mem_of_read_eq hn fun a => (h a).symm⟩
  have : Std.Antisymm (fun c d : Cell => c.1 < d.1) := ⟨fun _ _ hcd hdc => absurd hcd (Nat.lt_asymm hdc)⟩
  have : Std.Irrefl (fun c d : Cell => c.1 < d.1) := ⟨fun _ => Nat.lt_irrefl _⟩
  exact hm.1.eq_of_mem_iff hn.1 hmem

end Sys2Proof.Machine
end

section
/-! PROOFS. User mode and the OS (20_memory.md section 3, 60_exceptions.md section 4): a user-mode step reads no
word of an OS region and writes none. -/

namespace Sys2Proof.Machine

open Sys2Proof.Claims

/-! ## The same state over other memory -/

/-- The state with the memory `m`. -/
def State.withMem (σ : State) (m : Memory) : State := { σ with mem := m }

@[simp] theorem State.withMem_pc (σ : State) (m : Memory) : (σ.withMem m).pc = σ.pc := rfl
@[simp] theorem State.withMem_nextPc (σ : State) (m : Memory) : (σ.withMem m).nextPc = σ.nextPc := rfl
@[simp] theorem State.withMem_reg (σ : State) (m : Memory) (r : Reg) : (σ.withMem m).reg r = σ.reg r := rfl
@[simp] theorem State.withMem_check (σ : State) (m : Memory) (k : Access) (a : Word) :
    (σ.withMem m).check k a = σ.check k a := rfl

/-! ## What an instruction reads of memory -/

section

variable {σ : State} {m : Memory} (hinsn : (σ.withMem m).insn = σ.insn)

include hinsn

theorem accessFault_withMem (c : FaultCause) (k : Access) (a : Word) :
    accessFault (σ.withMem m) c k a = accessFault σ c k a := by
  cases k with
  | fetch => rfl
  | load | store => simp only [accessFault, State.withMem_pc, hinsn]

theorem divideInto_withMem (d : Reg) (divisor quotient : Word) :
    divideInto (σ.withMem m) d divisor quotient = divideInto σ d divisor quotient := by
  have hfault : divideFault (σ.withMem m) = divideFault σ := by
    simp only [divideFault, State.withMem_pc, hinsn]
  rw [divideInto, hfault]
  rfl

theorem effStr_withMem (t b : Reg) (imm6 : BitVec 6) : effStr t b imm6 (σ.withMem m) = effStr t b imm6 σ := by
  simp only [effStr, State.withMem_reg, State.withMem_check, State.withMem_nextPc, accessFault_withMem hinsn]

theorem effLdr_withMem (d b : Reg) (imm6 : BitVec 6)
    (hload : ∀ a, σ.check .load a = none → (σ.withMem m).word a = σ.word a) :
    effLdr d b imm6 (σ.withMem m) = effLdr d b imm6 σ := by
  simp only [effLdr, State.withMem_reg, State.withMem_check, State.withMem_nextPc, accessFault_withMem hinsn]
  cases hc : σ.check .load (effectiveAddress (σ.reg b) imm6) with
  | some cause => rfl
  | none => simp only [hload _ hc]

/-- What an instruction does depends on memory only through the word at pc and the words a load may read. -/
theorem effect_withMem (i : Instr) (hload : ∀ a, σ.check .load a = none → (σ.withMem m).word a = σ.word a) :
    effect i (σ.withMem m) = effect i σ := by
  cases i with
  | div | mod => exact divideInto_withMem hinsn _ _ _
  | ldr d b imm6 => exact effLdr_withMem hinsn d b imm6 hload
  | str t b imm6 => exact effStr_withMem hinsn t b imm6
  | _ => rfl

end

/-! ## States that differ in OS words alone -/

theorem AgreeOutsideOS.eq_withMem {s u : State} (h : AgreeOutsideOS s u) : u = s.withMem u.mem := by
  obtain ⟨hregs, hpc, hpsr, hfault, hparams, -⟩ := h
  cases u
  simp_all [State.withMem]

theorem AgreeOutsideOS.latch {s u : State} (h : AgreeOutsideOS s u) (r : FaultRecord) :
    AgreeOutsideOS (s.latch r) (u.latch r) := by
  obtain ⟨hregs, hpc, hpsr, -, hparams, hwords⟩ := h
  exact ⟨hregs, hpc, hpsr, rfl, hparams, hwords⟩

/-- The same writes leave the states differing in OS words alone: they store one word in both. -/
theorem AgreeOutsideOS.commit {s u : State} (h : AgreeOutsideOS s u) (w : Writes) :
    AgreeOutsideOS (s.commit w) (u.commit w) := by
  obtain ⟨hregs, -, hpsr, hfault, hparams, hwords⟩ := h
  refine ⟨congrArg w.regsOf hregs, rfl, congrArg w.psrOf hpsr, hfault, hparams, fun a ha => ?_⟩
  rw [commit_word, commit_word, hwords a ha]

section

variable {s : State} (hu : ¬ supervisor s)

include hu

/-- A user-mode access that the check lets pass is outside the OS regions. -/
theorem not_isOS_of_user_check {k : Access} {a : Word} (hc : s.check k a = none) :
    isOS (classify s.params.memMap a) = false := by
  by_contra hos
  have hos : inOS s a := (isOS_regionAt_iff s a).mp (Bool.eq_true_of_not_eq_false hos)
  rw [check_of_user_in_os k hu hos] at hc
  exact nomatch hc

/-- A user-mode step leaves every OS word. -/
theorem user_step_keeps_os_words {t : State} (hstep : step s = .next t) {a : Word} (ha : inOS s a) :
    t.word a = s.word a := by
  by_contra h
  obtain ⟨-, -, -, -, -, -, hlegal⟩ := onlyStrChangesMemory s t a hstep h
  have hcheck := (check_load_none_iff s a).mpr hlegal
  rw [check_of_user_in_os .load hu ha] at hcheck
  exact nomatch hcheck

/-- A user-mode step does the same from a state that differs in OS words alone: it fetches and loads outside them. -/
theorem user_step_agrees {u t : State} (h : AgreeOutsideOS s u) (hstep : step s = .next t) :
    ∃ v, step u = .next v ∧ AgreeOutsideOS t v := by
  have hwords : ∀ k a, s.check k a = none → u.word a = s.word a := fun k a hc =>
    (h.words a (not_isOS_of_user_check hu hc)).symm
  have heq := h.eq_withMem
  generalize u.mem = m at heq
  subst heq
  obtain ⟨hf, ⟨c, hc, rfl⟩ | ⟨hc, hend⟩⟩ := step_cases hstep
  · exact ⟨_, step_of_fetch_refused hf hc, h.latch _⟩
  · have hinsn : (s.withMem m).insn = s.insn := hwords .fetch s.pc hc
    have heffect := effect_withMem hinsn (decode s.insn) (hwords .load)
    have hexec : step (s.withMem m) = conclude (s.withMem m) (effect (decode s.insn) s) := by
      rw [step_of_fetchable (s := s.withMem m) hf hc, hinsn, exec_eq_conclude, heffect]
    obtain ⟨w, he, rfl⟩ | ⟨r, he, rfl⟩ := hend
    · exact ⟨_, by rw [hexec, he, conclude_commits], h.commit w⟩
    · exact ⟨_, by rw [hexec, he, conclude_raises], h.latch r⟩

end

/-- Settles O21: the two user-mode steps fetch, load and store outside the OS regions, where the states agree, so they
end in the same way, with the same writes. -/
theorem userModeIsIsolatedFromTheOS : Obligations.UserModeIsIsolatedFromTheOS := by
  intro s u t hagree hu hstep
  obtain ⟨v, hv, htv⟩ := user_step_agrees hu hagree hstep
  have hu' : ¬ supervisor u := by rwa [supervisor, ← hagree.psr]
  refine ⟨v, hv, htv, fun a ha => ⟨user_step_keeps_os_words hu hstep ha, ?_⟩⟩
  exact user_step_keeps_os_words hu' hv (by rwa [inOS, regionAt, ← hagree.params])

end Sys2Proof.Machine
end

section
/-! PROOFS. How a step ends and what it outputs (40_execute_common.md R100 to R111, 60_exceptions.md R200 to R204):
the fault record, the stop while `FAULT` is set, and the commit record. -/

namespace Sys2Proof.Machine

open Sys2Proof.Claims

/-! ## The step of a running core and of a stopped one -/

/-- What an instruction is shown to leave holds of the state it answers. -/
theorem holds_of_exec {i : Instr} {s t : State} {P : State → Prop} (hi : ∃ t, exec i s = .next t ∧ P t)
    (h : exec i s = .next t) : P t := by
  obtain ⟨t', ht', hP⟩ := hi
  rwa [← Host.Outcome.next.inj (ht'.symm.trans h)]

/-- Settles O3: with no fault latched and a legal fetch, nothing stands before `exec`. -/
theorem stepRunsTheDecodedInstruction : Obligations.StepRunsTheDecodedInstruction := by
  rintro s i hf hfetch - rfl
  exact step_of_fetchable hf ((check_fetch_none_iff s s.pc).mpr hfetch)

theorem output_of_latched {σ : State} {r : FaultRecord} (h : σ.fault = some r) :
    output σ = { status := r.cause.code, commit := none, imemAddr := none, dmem := none } := by
  simp [output, h]

/-- Settles O4: the latch is looked at first, by the step and by its outputs. -/
theorem stoppedCoreHasNoStep : Obligations.StoppedCoreHasNoStep := by
  intro s r h
  rw [output_of_latched h]
  exact ⟨step_of_latched h, rfl, rfl⟩

/-! ## The fault record -/

/-- The instruction a word decodes to is what the words of its row decode to. -/
theorem eq_of_decode {w : Word} {i : Instr} {f : Word → Instr} (hrow : rowDecodes (rowOf i).1 (rowOf i).2 f)
    (h : decode w = i) : i = f w := by
  obtain ⟨-, hw⟩ := decode_liesInRow w
  rw [h] at hw
  exact h.symm.trans (hrow w hw)

/-- An illegal instruction carries the word it was decoded from. -/
theorem word_of_decode_illegal {w v : Word}
    (h : decode w = .illegal0011 v ∨ decode w = .illegal1011 v ∨ decode w = .illegal1110 v ∨
      decode w = .illegal1101 v) : v = w := by
  obtain h | h | h | h := h
  · exact Instr.illegal0011.inj (eq_of_decode rowDecodes_illegal0011 h)
  · exact Instr.illegal1011.inj (eq_of_decode rowDecodes_illegal1011 h)
  · exact Instr.illegal1110.inj (eq_of_decode rowDecodes_illegal1110 h)
  · exact Instr.illegal1101.inj (eq_of_decode rowDecodes_illegal1101 h)

theorem latch_latchesOnly (s : State) (r : FaultRecord) : latchesOnly s (s.latch r) r :=
  ⟨rfl, rfl, rfl, rfl, rfl, rfl⟩

/-- Settles O13: a fault is the fetch check's, whose record is its own, or the decoded instruction's, whose record
says where; either latches the record and outputs its cause alone. -/
theorem faultsArePrecise : Obligations.FaultsArePrecise := by
  intro s t r hstep hr
  obtain ⟨hf, ⟨c, hc, rfl⟩ | ⟨hc, ⟨w, -, rfl⟩ | ⟨f, he, rfl⟩⟩⟩ := step_cases hstep
  · obtain rfl : accessFault s c .fetch s.pc = r := Option.some.inj hr
    rw [output_of_fetch_fault hf hc]
    exact ⟨latch_latchesOnly s _, rfl, fun _ => ⟨rfl, rfl⟩, fun hk => absurd rfl hk, fun _ => rfl,
      fun hk => FaultKind.noConfusion hk, fun hk => FaultKind.noConfusion hk, rfl, rfl⟩
  · exact absurd (hf.symm.trans hr) (by simp)
  · obtain rfl : f = r := Option.some.inj hr
    obtain ⟨hpc, hfetch, hat, hload, hstore, hinsn⟩ := effect_raises_cases he
    have hword : f.insn = some (s.word s.pc) := by
      obtain hinsn | ⟨v, hinsn, hill⟩ := hinsn
      · exact hinsn
      · rw [hinsn, word_of_decode_illegal hill]
        rfl
    rw [output_of_raises hf hc he]
    exact ⟨latch_latchesOnly s f, hpc, fun hk => absurd hk hfetch, fun _ => hword, hat, hload, hstore,
      rfl, rfl⟩

/-! ## The commit record -/

section

variable {i : Instr} {s : State} {w : Writes} (he : effect i s = .commits w)

include he

/-- The register fields name the register written, of an instruction that R23 lists, and are 0 for the others. -/
theorem commitRecord_reg_fields :
    (commitRecord s w).regWe = (listedWrites i).isSome ∧
      ((commitRecord s w).regWe = true → listedWrites i = some (commitRecord s w).regIdx ∧
        (s.commit w).reg (commitRecord s w).regIdx = (commitRecord s w).regVal ∧
        sameRegsBut (commitRecord s w).regIdx s (s.commit w)) ∧
      ((commitRecord s w).regWe = false → sameRegs s (s.commit w) ∧
        (commitRecord s w).regIdx = 0#3 ∧ (commitRecord s w).regVal = 0#16) := by
  cases hl : listedWrites i with
  | none =>
    have hw := effect_reg_of_unlisted hl he
    simpa [commitRecord, hw, sameRegs] using commit_reg_of_none s hw
  | some d =>
    obtain ⟨v, hw⟩ := effect_reg_of_listed hl he
    simpa [commitRecord, hw, sameRegsBut, commit_reg_written s hw] using fun r hr => commit_reg_others s hw hr

/-- The flag fields hold the flags written, of an instruction that R107 lists, and are 0 for the others. -/
theorem commitRecord_nzp_fields :
    (commitRecord s w).nzpWe = listedFlags i ∧
      ((commitRecord s w).nzpWe = true → nzpOf (s.commit w).psr = (commitRecord s w).nzpVal ∧
        oneFlag (commitRecord s w).nzpVal) ∧
      ((commitRecord s w).nzpWe = false → nzpOf (s.commit w).psr = nzpOf s.psr ∧
        (commitRecord s w).nzpVal = 0#3) := by
  have hpsr : nzpOf (w.psrOf s.psr) = w.nzp.getD (nzpOf s.psr) := commit_nzp s w
  cases hl : listedFlags i with
  | false =>
    have hw := effect_nzp_of_unlisted hl he
    simp [commitRecord, hpsr, hw]
  | true =>
    obtain ⟨c, hw⟩ := effect_nzp_of_listed hl he
    simpa [commitRecord, hpsr, hw] using effect_commits_oneFlag he hw

/-- The data fields hold the access of LDR or STR, whose word alone a store changes, and are 0 for the others. -/
theorem commitRecord_data_fields :
    ((commitRecord s w).dataWe = true →
        (s.commit w).word (commitRecord s w).dataAddr = (commitRecord s w).dataVal ∧
        ∀ a : Word, a ≠ (commitRecord s w).dataAddr → (s.commit w).word a = s.word a) ∧
      ((commitRecord s w).dataWe = false → sameMemory s (s.commit w)) ∧
      (∀ d b imm6, i = .ldr d b imm6 → (commitRecord s w).dataWe = false ∧
        (commitRecord s w).dataAddr = effectiveAddress (s.reg b) imm6 ∧
        (commitRecord s w).dataVal = s.word (effectiveAddress (s.reg b) imm6)) ∧
      (∀ r b imm6, i = .str r b imm6 → (commitRecord s w).dataWe = true ∧
        (commitRecord s w).dataAddr = effectiveAddress (s.reg b) imm6 ∧ (commitRecord s w).dataVal = s.reg r) ∧
      ((¬ ∃ d b imm6, i = .ldr d b imm6) → (¬ ∃ r b imm6, i = .str r b imm6) →
        (commitRecord s w).dataWe = false ∧ (commitRecord s w).dataAddr = 0#16 ∧
        (commitRecord s w).dataVal = 0#16) := by
  obtain ⟨-, -, ⟨hd, hldr, hstr⟩ | ⟨d, b, imm6, rfl, -, hd⟩ | ⟨r, b, imm6, rfl, -, hd⟩⟩ :=
    effect_commits_cases he
  · simp [commitRecord, hd, hldr, hstr, sameMemory, commit_word]
  · simp [commitRecord, hd, sameMemory, commit_word, DataAccess.isStore, DataAccess.address, DataAccess.value]
  · simp +contextual [commitRecord, hd, commit_word, DataAccess.isStore, DataAccess.address, DataAccess.value]

end

/-- Settles O49: the record is made from the writes the instruction commits, as the next state is. -/
theorem commitRecordTellsWhatWasWritten : Obligations.CommitRecordTellsWhatWasWritten := by
  intro s t hstep ht
  obtain ⟨hf, ⟨c, hc, rfl⟩ | ⟨hc, ⟨w, he, rfl⟩ | ⟨f, he, rfl⟩⟩⟩ := step_cases hstep
  · exact nomatch ht
  · rw [output_of_commits hf hc he]
    obtain ⟨hregWe, hreg, hnoReg⟩ := commitRecord_reg_fields he
    obtain ⟨hnzpWe, hnzp, hnoNzp⟩ := commitRecord_nzp_fields he
    exact ⟨rfl, commitRecord s w, rfl, rfl, rfl, hregWe, hreg, hnoReg, hnzpWe, hnzp, hnoNzp,
      commitRecord_data_fields he⟩
  · exact nomatch ht

end Sys2Proof.Machine
end

section
/-! PROOFS. The loop of the host (70_reset_and_hazards.md R244, R247): one turn, case by case, and the end
and the records of a whole run. -/

namespace Sys2Proof.Machine

open Sys2Proof.Claims

/-! ## One turn -/

section

variable {s : State} (hhalt : s.pc ≠ s.params.haltPc)

include hhalt

theorem runLoop_zero : runLoop 0 s = { ending := .cancelled, state := s, records := [] } := by
  rw [runLoop]
  exact if_neg hhalt

theorem runLoop_of_commit {t : State} {c : CommitRecord} (hstep : step s = .next t) (ht : t.fault = none)
    (hc : (output s).commit = some c) (n : Nat) :
    runLoop (n + 1) s = { runLoop n t with records := c :: (runLoop n t).records } := by
  simp [runLoop_succ hhalt, hstep, ht, hc]

theorem runLoop_of_fault {t : State} {r : FaultRecord} (hstep : step s = .next t) (ht : t.fault = some r)
    (n : Nat) : runLoop (n + 1) s = { ending := .faulted r, state := t, records := [] } := by
  simp [runLoop_succ hhalt, hstep, ht]

theorem runLoop_of_latched {r : FaultRecord} (hs : s.fault = some r) (n : Nat) :
    runLoop (n + 1) s = { ending := .faulted r, state := s, records := [] } := by
  simp [runLoop_succ hhalt, step_of_latched hs]

end

/-- A step that commits outputs a record. -/
theorem output_commit_of_step {s t : State} (hstep : step s = .next t) (ht : t.fault = none) :
    ∃ c, (output s).commit = some c := by
  obtain ⟨-, c, hc, -⟩ := commitRecordTellsWhatWasWritten s t hstep ht
  exact ⟨c, hc⟩

/-! ## A whole run -/

/-- `r` is a run of at most `n` steps from `s` that ends as R247 says: the committed steps it has the records of lead
to its last state; it ends halted only without a fault, where it began with none. -/
def RunFrom (n : Nat) (s : State) (r : RunResult) : Prop :=
  (∃ u, commitsAlong s r.records u ∧ runEnds n r u) ∧
    (s.fault = none → r.ending = .halted → r.state.fault = none) ∧ r.records.length ≤ n

/-- A run from the state a committed step leaves is one from the state before, with the step's record put first. -/
theorem RunFrom.cons {n : Nat} {s t : State} {c : CommitRecord} {r : RunResult}
    (hhalt : s.pc ≠ s.params.haltPc) (hstep : step s = .next t) (ht : t.fault = none)
    (hc : (output s).commit = some c) (h : RunFrom n t r) :
    RunFrom (n + 1) s { r with records := c :: r.records } := by
  obtain ⟨⟨u, hsteps, hends⟩, hfault, hlen⟩ := h
  refine ⟨⟨u, ⟨hhalt, t, hstep, ht, hc, hsteps⟩, ?_⟩, fun _ => hfault ht, Nat.succ_le_succ hlen⟩
  obtain ⟨ending, state, records⟩ := r
  cases ending with
  | halted | faulted => exact hends
  | cancelled =>
    obtain ⟨hstate, hpc, hn⟩ := hends
    exact ⟨hstate, hpc, congrArg Nat.succ hn⟩

/-- By induction on the step limit: each turn ends the run, or puts a committed step before a shorter one. -/
theorem runLoop_runFrom (n : Nat) (s : State) : RunFrom n s (runLoop n s) := by
  induction n generalizing s with
  | zero =>
    by_cases hhalt : s.pc = s.params.haltPc
    · rw [runLoop_halted hhalt]
      exact ⟨⟨s, rfl, rfl, hhalt⟩, fun hs _ => hs, Nat.zero_le _⟩
    · rw [runLoop_zero hhalt]
      exact ⟨⟨s, rfl, rfl, hhalt, rfl⟩, fun _ => nofun, Nat.zero_le _⟩
  | succ n ih =>
    by_cases hhalt : s.pc = s.params.haltPc
    · rw [runLoop_halted hhalt]
      exact ⟨⟨s, rfl, rfl, hhalt⟩, fun hs _ => hs, Nat.zero_le _⟩
    cases hs : s.fault with
    | some r =>
      rw [runLoop_of_latched hhalt hs]
      exact ⟨⟨s, rfl, hhalt, hs, .inr rfl⟩, fun _ => nofun, Nat.zero_le _⟩
    | none =>
      obtain ⟨t, hstep⟩ := step_next hs
      cases ht : t.fault with
      | some r =>
        rw [runLoop_of_fault hhalt hstep ht]
        exact ⟨⟨s, rfl, hhalt, ht, .inl hstep⟩, fun _ => nofun, Nat.zero_le _⟩
      | none =>
        obtain ⟨c, hc⟩ := output_commit_of_step hstep ht
        rw [runLoop_of_commit hhalt hstep ht hc]
        exact (ih t).cons hhalt hstep ht hc

/-- Settles O52: the loop's turns case by case, and by induction on the limit what they come to. -/
theorem runsEndHaltedOrFaulted : Obligations.RunsEndHaltedOrFaulted := by
  intro n s
  refine ⟨fun hhalt => runLoop_halted hhalt n, fun hhalt => ⟨runLoop_zero hhalt, fun t hstep ht => ?_,
    fun t r hstep ht => runLoop_of_fault hhalt hstep ht n, fun r hs => runLoop_of_latched hhalt hs n⟩,
    runLoop_runFrom n s⟩
  obtain ⟨c, hc⟩ := output_commit_of_step hstep ht
  exact ⟨c, hc, runLoop_of_commit hhalt hstep ht hc n⟩

end Sys2Proof.Machine
end

section
/-! PROOFS. Reset (10_state.md R34, 70_reset_and_hazards.md R230). -/

namespace Sys2Proof.Machine

open Sys2Proof.Claims

theorem resetWith_reg (p : Params) (r : Reg) : (State.resetWith p).reg r = 0x0000#16 := by
  simp [State.reg, readReg]

/-- Settles O1: reset takes nothing but the parameters from the state, and keeps them. -/
theorem resetLeavesTheResetState : Obligations.ResetLeavesTheResetState :=
  ⟨fun s => ⟨resetWith_reg s.params, rfl, rfl, fun _ => rfl, rfl, rfl⟩, rfl, rfl⟩

end Sys2Proof.Machine
end

section
/-! PROOFS. NOP and the branches (41_branch.md R120 to R128), the compares (43_compare.md R140 to R143), and a BRn
after a compare (70_reset_and_hazards.md R252). -/

namespace Sys2Proof.Machine

open Sys2Proof.Claims

/-! ## Branches -/

theorem getLsbD_nzpOf {k : Nat} (hk : k < 3) (psr : Word) : (nzpOf psr).getLsbD k = psr.getLsbD k := by
  simp [nzpOf, hk]

/-- R120's test: the mask and the flags have a bit in common. -/
theorem common_flag_iff (m : Nzp) (psr : Word) :
    (∃ k, k < 3 ∧ m.getLsbD k = true ∧ psr.getLsbD k = true) ↔ m &&& nzpOf psr ≠ 0b000#3 := by
  constructor
  · rintro ⟨k, hk, hm, hp⟩ hzero
    have hbit := congrArg (fun v => v.getLsbD k) hzero
    simp [getLsbD_nzpOf hk, hm, hp] at hbit
  · intro hne
    by_contra hnone
    refine hne (BitVec.eq_of_getLsbD_eq fun k hk => ?_)
    rw [BitVec.getLsbD_and, getLsbD_nzpOf hk, BitVec.getLsbD_zero, Bool.and_eq_false_iff]
    by_contra hboth
    rw [not_or, Bool.not_eq_false, Bool.not_eq_false] at hboth
    exact hnone ⟨k, hk, hboth⟩

theorem branchRule_of_effect {c : BitVec 9 → Instr} {m : Nzp}
    (h : ∀ imm9 s, effect (c imm9) s = branch m imm9 s) : branchRule c m := by
  intro imm9 s
  have heffect := (h imm9 s).trans (branch_eq m imm9 s)
  rw [common_flag_iff]
  refine ⟨fun ht => movesPc_of_jumpTo heffect ?taken, fun hn => movesPc_of_jumpTo heffect ?notTaken⟩
  case taken =>
    rw [if_pos ht]
    exact relativeTarget_toNat (by decide) s.pc imm9
  case notTaken =>
    rw [if_neg hn]
    exact following_toNat s.pc

/-- Settles O26: the mask I[11:9] picks the row, and each branch is `branch` of its mask, a jump to the target or to
pc + 1. -/
theorem branchesTakenOnACommonFlag : Obligations.BranchesTakenOnACommonFlag :=
  ⟨⟨rowDecodes_nop, branchRule_of_effect fun _ _ => rfl⟩,
    ⟨rowDecodes_brp, branchRule_of_effect fun _ _ => rfl⟩,
    ⟨rowDecodes_brz, branchRule_of_effect fun _ _ => rfl⟩,
    ⟨rowDecodes_brzp, branchRule_of_effect fun _ _ => rfl⟩,
    ⟨rowDecodes_brn, branchRule_of_effect fun _ _ => rfl⟩,
    ⟨rowDecodes_brnp, branchRule_of_effect fun _ _ => rfl⟩,
    ⟨rowDecodes_brnz, branchRule_of_effect fun _ _ => rfl⟩,
    ⟨rowDecodes_brnzp, branchRule_of_effect fun _ _ => rfl⟩⟩

/-! ## Compares -/

theorem givesFlags_of_flagsFrom {i : Instr} {s : State} {n : Int} (h : effect i s = flagsFrom s n) :
    givesFlags i s n := by
  obtain ⟨t, ht⟩ := exec_next i s
  have hflagsFrom : conclude s (flagsFrom s n) = .next t := by rwa [exec_eq_conclude, h] at ht
  obtain ⟨hregs, hpsr, hmem, hpc, hfault, hparams⟩ := flagsFrom_spec hflagsFrom
  obtain ⟨hflags, hrest⟩ := flagsTell_of_psr hpsr
  have hpc1 : pcPlusOne s t := (congrArg BitVec.toNat hpc).trans (following_toNat s.pc)
  exact ⟨t, ht, hflags, hrest, hregs, hmem, hpc1, hfault, hparams⟩

theorem s16_sext16 {n : Nat} (hn : n ≤ 16) (f : BitVec n) : s16 (sext16 f) = f.toInt :=
  BitVec.toInt_signExtend_of_le hn

theorem u16_zext16 {n : Nat} (hn : n ≤ 16) (f : BitVec n) : u16 (zext16 f) = (f.toNat : Int) :=
  congrArg Nat.cast (BitVec.toNat_setWidth_of_le hn)

/-- Settles O32: the selector I[8:7] picks the row, and each compare takes the flags from the exact difference. -/
theorem comparesTellTheExactDifference : Obligations.ComparesTellTheExactDifference := by
  refine ⟨rowDecodes_cmp, rowDecodes_cmpu, rowDecodes_cmpi, rowDecodes_cmpiu,
    fun s a b imm7 => ⟨?_, ?_, ?_, ?_⟩⟩
  · rw [signed_toNat, signed_toNat]
    exact givesFlags_of_flagsFrom rfl
  · exact givesFlags_of_flagsFrom rfl
  · rw [signed_toNat, ← s16_sext16 (by decide) imm7]
    exact givesFlags_of_flagsFrom rfl
  · rw [← u16_zext16 (by decide) imm7]
    exact givesFlags_of_flagsFrom rfl

/-! ## A branch after a compare -/

theorem following_eq_add_one (pc : Word) : following pc = pc + 1#16 := by
  apply BitVec.eq_of_toNat_eq
  rw [following_toNat, BitVec.toNat_add]
  rfl

theorem relativeTarget_eq_add {n : Nat} (pc : Word) (imm : BitVec n) :
    relativeTarget pc imm = pc + 1#16 + imm.signExtend 16 :=
  calc relativeTarget pc imm = w16 (u16 pc) + w16 1 + w16 (s16 (sext16 imm)) := by
        simp only [relativeTarget, w16, BitVec.ofInt_add]
    _ = pc + 1#16 + imm.signExtend 16 := by
        rw [w16_u16, w16_s16]
        rfl

/-- BRn tests N alone. -/
theorem brn_taken_iff (psr : Word) : 0b100#3 &&& nzpOf psr ≠ 0b000#3 ↔ psr.getLsbD 2 = true := by
  rw [← common_flag_iff]
  constructor
  · rintro ⟨k, hk, hmask, hflag⟩
    obtain rfl : k = 2 := by interval_cases k <;> simp_all
    exact hflag
  · exact fun hflag => ⟨2, by decide, by decide, hflag⟩

theorem exec_brn_pc {imm9 : BitVec 9} {t u : State} (h : exec (.brn imm9) t = .next u) :
    u.pc = if t.psr.getLsbD 2 = true then t.pc + 1#16 + imm9.signExtend 16 else t.pc + 1#16 := by
  have hbranch : conclude t (branch 0b100#3 imm9 t) = .next u := h
  rw [branch_eq] at hbranch
  obtain ⟨hpc, -⟩ := jumpTo_spec hbranch
  simp only [hpc, brn_taken_iff, relativeTarget_eq_add, State.nextPc, following_eq_add_one]

/-- After an instruction that takes the flags from the integer `n`, BRn is taken exactly when `n` is negative. -/
theorem brn_after_givesFlags {i : Instr} {s t u : State} {n : Int} {imm9 : BitVec 9} (hi : givesFlags i s n)
    (h : exec i s = .next t) (hbrn : exec (.brn imm9) t = .next u) :
    u.pc = if n < 0 then t.pc + 1#16 + imm9.signExtend 16 else t.pc + 1#16 := by
  obtain ⟨⟨hN, -⟩, -⟩ := holds_of_exec hi h
  rw [exec_brn_pc hbrn]
  exact if_congr hN rfl rfl

/-- Settles O33: a compare takes the flags from the difference, which is negative exactly when the first operand is
below the second. -/
theorem branchAfterCompareTestsTheOrder : Obligations.BranchAfterCompareTestsTheOrder := by
  intro s t u a b imm9 hbrn
  obtain ⟨-, -, -, -, hcompare⟩ := comparesTellTheExactDifference
  obtain ⟨hcmp, hcmpu, -⟩ := hcompare s a b 0#7
  refine ⟨fun h => (brn_after_givesFlags hcmp h hbrn).trans ?_,
    fun h => (brn_after_givesFlags hcmpu h hbrn).trans ?_⟩
  · exact if_congr sub_neg rfl rfl
  · exact if_congr (sub_neg.trans Nat.cast_lt) rfl rfl

end Sys2Proof.Machine
end

section
/-! PROOFS. ADDI, DIV and MOD (42_arithmetic.md R133, R134, 46_shift_mod.md R173), HICONST (45_constant.md R161) and
NOT (47_logical.md R181). -/

namespace Sys2Proof.Machine

open Sys2Proof.Claims

/-! ## ADDI -/

/-- R134 as a number: the sum with the immediate's signed value. -/
theorem aluAdd_sext16_toNat {n : Nat} (v : Word) (imm : BitVec n) :
    (aluAdd v (sext16 imm)).toNat = (((v.toNat : Int) + imm.toInt) % 65536).toNat := by
  have himm := sext16_toNat imm
  rw [aluAdd_toNat]
  omega

/-- Settles O28: the mode bit I[5] picks the row, and ADDI's effect is the sum with the sign-extended IMM5. -/
theorem addiAddsTheSignedImmediate : Obligations.AddiAddsTheSignedImmediate :=
  ⟨rowDecodes_addi, fun s _ a imm5 => givesNumber_of_resultTo rfl (aluAdd_sext16_toNat (s.reg a) imm5)⟩

/-! ## DIV and MOD -/

section

variable {s : State} {d a b : Reg}

theorem effect_div_of_ne (h : s.reg b ≠ 0#16) :
    effect (.div d a b) s = resultTo s d (aluDiv (s.reg a) (s.reg b)) :=
  (divideInto_eq s d (s.reg b) _).1 h

theorem effect_mod_of_ne (h : s.reg b ≠ 0#16) :
    effect (.mod d a b) s = resultTo s d (aluMod (s.reg a) (s.reg b)) :=
  (divideInto_eq s d (s.reg b) _).1 h

/-- DIV and MOD have one effect for a zero divisor, the one that `DIV_BY_ZERO` says. -/
theorem effect_of_zero_divisor {i : Instr} (hi : i = .div d a b ∨ i = .mod d a b) (h : s.reg b = 0#16) :
    (s.params.divByZero = .zeroResult → effect i s = resultTo s d zeroDivisorResult) ∧
      (s.params.divByZero = .fault → effect i s = .raises (divideFault s)) := by
  obtain ⟨quotient, he⟩ : ∃ quotient, effect i s = divideInto s d (s.reg b) quotient := by
    obtain rfl | rfl := hi
    · exact ⟨_, rfl⟩
    · exact ⟨_, rfl⟩
  obtain ⟨-, hzero, hfault⟩ := divideInto_eq s d (s.reg b) quotient
  exact ⟨fun hp => he.trans (hzero h hp), fun hp => he.trans (hfault h hp)⟩

end

/-- Settles O29: the selectors pick the rows, and the effect is the quotient or the remainder, or the zero result. -/
theorem divModAreUnsigned : Obligations.DivModAreUnsigned := by
  refine ⟨rowDecodes_div, rowDecodes_mod, fun s d a b => ⟨fun hb => ⟨?_, ?_⟩, fun hb hp => ⟨?_, ?_⟩⟩⟩
  · exact givesNumber_of_resultTo (effect_div_of_ne hb) (aluDiv_toNat _ _)
  · exact givesNumber_of_resultTo (effect_mod_of_ne hb) (aluMod_toNat _ _)
  · exact givesNumber_of_resultTo ((effect_of_zero_divisor (.inl rfl) hb).1 hp) rfl
  · exact givesNumber_of_resultTo ((effect_of_zero_divisor (.inr rfl) hb).1 hp) rfl

/-- Settles O30: under `Fault` the effect for a zero divisor raises DivideByZero, and a raised fault is latched
alone. -/
theorem divModByZeroCanFault : Obligations.DivModByZeroCanFault := by
  intro s d a b hb hp i hi
  exact ⟨_, exec_of_raises ((effect_of_zero_divisor hi hb).2 hp), latch_latchesOnly s (divideFault s)⟩

/-- Settles O31: the results are the quotient and the remainder of one division. -/
theorem quotientAndRemainderFit : Obligations.QuotientAndRemainderFit := by
  intro s t u q r a b hb ht hu
  obtain ⟨-, -, hresults⟩ := divModAreUnsigned
  obtain ⟨hq, -⟩ := holds_of_exec ((hresults s q a b).1 hb).1 ht
  obtain ⟨hr, -⟩ := holds_of_exec ((hresults s r a b).1 hb).2 hu
  have hpos : 0 < (s.reg b).toNat := Nat.pos_of_ne_zero fun h0 => hb (BitVec.eq_of_toNat_eq h0)
  rw [hq, hr]
  exact ⟨Nat.div_add_mod' _ _, Nat.mod_lt _ hpos⟩

/-! ## HICONST and illegal words -/

/-- R161: the immediate above the lower byte. -/
theorem aluHiconst_eq_append (v : Word) (uimm8 : BitVec 8) : aluHiconst v uimm8 = uimm8 ++ v.extractLsb' 0 8 := by
  apply BitVec.eq_of_getLsbD_eq
  intro k hk
  simp only [aluHiconst, zext16, BitVec.getLsbD_or, BitVec.getLsbD_and, BitVec.getLsbD_shiftLeft,
    BitVec.getLsbD_setWidth, BitVec.getLsbD_append, BitVec.getLsbD_extractLsb']
  interval_cases k <;> simp

/-- R161 as a number. -/
theorem aluHiconst_toNat (v : Word) (uimm8 : BitVec 8) :
    (aluHiconst v uimm8).toNat = uimm8.toNat * 256 + v.toNat % 256 := by
  have hlow : (v.extractLsb' 0 8).toNat < 2 ^ 8 := BitVec.isLt _
  rw [aluHiconst_eq_append, BitVec.toNat_append, ← Nat.shiftLeft_add_eq_or_of_lt hlow, Nat.shiftLeft_eq,
    BitVec.extractLsb'_toNat]
  rfl

theorem exec_illegal {i : Instr} (s : State) {w : Word}
    (hi : i = .illegal0011 w ∨ i = .illegal1011 w ∨ i = .illegal1110 w ∨ i = .illegal1101 w) :
    exec i s = .next (s.latch (illegalFault s w)) := by
  obtain rfl | rfl | rfl | rfl := hi <;> rfl

/-- Settles O48: the opcode, or with it I[8], picks the row, and the instruction raises IllegalInstruction. -/
theorem illegalWordsRaiseIllegalInstruction : Obligations.IllegalWordsRaiseIllegalInstruction :=
  ⟨rowDecodes_illegal0011, rowDecodes_illegal1011, rowDecodes_illegal1110, rowDecodes_illegal1101,
    fun s w _ hi => ⟨_, exec_illegal s hi, latch_latchesOnly s (illegalFault s w)⟩⟩

/-- Settles O37: the marker I[8] picks the row, and HICONST's effect is the word with its upper byte replaced. -/
theorem hiconstReplacesTheUpperByte : Obligations.HiconstReplacesTheUpperByte :=
  ⟨rowDecodes_hiconst, rowDecodes_illegal1101,
    fun s w => ⟨_, illegalFault s w, exec_illegal s (.inr (.inr (.inr rfl))), rfl, rfl⟩,
    fun s d uimm8 => givesNumber_of_resultTo rfl (aluHiconst_toNat (s.reg d) uimm8)⟩

theorem extract_low_byte_sext16 (imm9 : BitVec 9) : (sext16 imm9).extractLsb' 0 8 = imm9.extractLsb' 0 8 := by
  apply BitVec.eq_of_getLsbD_eq
  intro k hk
  rw [BitVec.getLsbD_extractLsb', BitVec.getLsbD_extractLsb', sext16_getLsbD imm9 (by omega), if_pos (by omega)]

theorem pc_of_pcPlusOne {s t : State} (h : pcPlusOne s t) : t.pc = s.pc + 1#16 :=
  BitVec.eq_of_toNat_eq (h.trans (BitVec.toNat_add s.pc 1#16).symm)

/-- Settles O38: HICONST keeps the low byte that CONST leaves, IMM9[7:0]. -/
theorem constThenHiconstLoadsAnyWord : Obligations.ConstThenHiconstLoadsAnyWord := by
  intro s d imm9 hi
  obtain ⟨t, ht, htd, htregs, -, -, -, htpc, -⟩ := exec_of_resultTo (i := .const d imm9) (s := s) rfl
  obtain ⟨u, hu, hud, huregs, -, -, -, hupc, -⟩ := exec_of_resultTo (i := .hiconst d hi) (s := t) rfl
  refine ⟨t, u, ht, hu, ?_, fun r hr => (huregs r hr).trans (htregs r hr), ?_⟩
  · rw [hud, aluHiconst_eq_append, htd, extract_low_byte_sext16]
  · rw [pc_of_pcPlusOne hupc, pc_of_pcPlusOne htpc, BitVec.add_assoc]
    rfl

/-! ## NOT -/

/-- R181 as a number: the signed value is -v - 1. -/
theorem not_toNat (v : Word) : (~~~v).toNat = ((-signed v.toNat - 1) % 65536).toNat := by
  have hlt := v.isLt
  rw [BitVec.toNat_not, signed]
  split <;> omega

/-- Settles O41: the selectors I[5:3] pick the row whatever I[2:0] is, and NOT's effect is the complement, read bit
by bit and as a number. -/
theorem notInvertsEveryBit : Obligations.NotInvertsEveryBit := by
  refine ⟨rowDecodes_not, fun s d a =>
    ⟨givesBits_of_resultTo rfl fun k hk => ?_, givesNumber_of_resultTo rfl (not_toNat (s.reg a))⟩⟩
  rw [BitVec.getLsbD_not, decide_eq_true hk, Bool.true_and]

end Sys2Proof.Machine
end

section
/-! PROOFS. LDR and STR (44_load_store.md R150 to R152): the address, the legal access with its frame, and the fault
of an illegal one; and the default memory map (20_memory.md R42; D1, log 2). -/

namespace Sys2Proof.Machine

open Sys2Proof.Claims

/-! ## The effective address and the fault -/

/-- R150: base plus the signed IMM6, modulo 65536. -/
theorem effectiveAddress_toNat (base : Word) (imm6 : BitVec 6) :
    (effectiveAddress base imm6).toNat = (((base.toNat : Int) + imm6.toInt) % 65536).toNat :=
  aluAdd_sext16_toNat base imm6

/-- An access that is not legal is refused with the cause that R45 gives. -/
theorem check_load_violation {s : State} {a : Word} (h : ¬ dataLegal s a) :
    ∃ c, s.check .load a = some c ∧ violation s a c := by
  by_cases hos : ¬ supervisor s ∧ inOS s a
  · obtain ⟨hu, ho⟩ := hos
    exact ⟨_, check_of_user_in_os .load hu ho, .inl ⟨hu, ho, rfl⟩⟩
  · obtain ⟨c, hc⟩ := check_load_refuses h
    exact ⟨c, hc, .inr ⟨hos, check_cause_of_not_user_in_os hos hc⟩⟩

section

variable {s : State} {b : Reg} {imm6 : BitVec 6}

theorem effect_ldr_of_refused {d : Reg} {c : FaultCause}
    (hc : s.check .load (effectiveAddress (s.reg b) imm6) = some c) :
    effect (.ldr d b imm6) s = .raises (accessFault s c .load (effectiveAddress (s.reg b) imm6)) := by
  simp [effect, effLdr, hc]

theorem effect_str_of_refused {r : Reg} {c : FaultCause}
    (hc : s.check .load (effectiveAddress (s.reg b) imm6) = some c) :
    effect (.str r b imm6) s = .raises (accessFault s c .store (effectiveAddress (s.reg b) imm6)) := by
  simp [effect, effStr, check_store_eq_load, hc]

/-! ## The legal access -/

/-- A legal load leaves what the result `v` would, the word at its address, beside the access it shows. -/
theorem conclude_ldr_of_legal {d : Reg} (hc : s.check .load (effectiveAddress (s.reg b) imm6) = none) :
    conclude s (effect (.ldr d b imm6) s) =
      conclude s (resultTo s d (s.word (effectiveAddress (s.reg b) imm6))) := by
  simp only [effect, effLdr, hc]
  rfl

theorem exec_str_of_legal {r : Reg} (hc : s.check .load (effectiveAddress (s.reg b) imm6) = none) :
    exec (.str r b imm6) s = .next (s.commit
      { data := some (.store (effectiveAddress (s.reg b) imm6) (s.reg r)), pc := s.nextPc }) := by
  rw [exec_eq_conclude]
  simp only [effect, effStr, check_store_eq_load, hc]
  rfl

end

/-- Settles O34: a legal load leaves what the result of its word would, and an illegal one raises the cause of its
check. -/
theorem ldrLoadsTheWordAtItsAddress : Obligations.LdrLoadsTheWordAtItsAddress := by
  refine ⟨rowDecodes_ldr, fun s d b imm6 =>
    ⟨effectiveAddress_toNat _ _, fun hlegal => ?legal, fun hillegal => ?illegal⟩⟩
  case legal =>
    obtain ⟨t, ht⟩ := exec_next (.ldr d b imm6) s
    have hresult := ht
    rw [exec_eq_conclude, conclude_ldr_of_legal ((check_load_none_iff s _).mpr hlegal)] at hresult
    obtain ⟨hd, hframe⟩ := resultTo_resultFrame hresult
    exact ⟨t, ht, congrArg BitVec.toNat hd, hframe⟩
  case illegal =>
    obtain ⟨c, hc, hcause⟩ := check_load_violation hillegal
    exact ⟨_, c, exec_of_raises (effect_ldr_of_refused hc), hcause, latch_latchesOnly s _⟩

/-- Settles O35: a legal store commits its one word and pc, and an illegal one raises the cause of its check. -/
theorem strStoresTheRegisterAtItsAddress : Obligations.StrStoresTheRegisterAtItsAddress := by
  refine ⟨rowDecodes_str, fun s r b imm6 => ⟨fun hlegal => ?legal, fun hillegal => ?illegal⟩⟩
  case legal =>
    refine ⟨_, exec_str_of_legal ((check_load_none_iff s _).mpr hlegal), ?_, fun a ha => ?_,
      commit_reg_of_none s rfl, commit_psr_of_none s rfl rfl, following_toNat s.pc, rfl, rfl⟩
    · exact (commit_word _ _ _).trans (if_pos rfl)
    · exact (commit_word _ _ _).trans (if_neg ha)
  case illegal =>
    obtain ⟨c, hc, hcause⟩ := check_load_violation hillegal
    exact ⟨_, c, exec_of_raises (effect_str_of_refused hc), hcause, latch_latchesOnly s _⟩

/-! ## The default map -/

theorem classify_defaultMemMap (a : Word) : classify defaultMemMap a =
    if a.toNat < 0x2000 then .userCode else if a.toNat < 0x8000 then .userData
    else if a.toNat < 0xA000 then .osCode else .osData := by
  simp only [classify, defaultMemMap, List.foldl_cons, List.foldl_nil, BitVec.le_def, BitVec.toNat_ofNat]
  grind

theorem effectiveAddress_zero (base : Word) : effectiveAddress base 0#6 = base :=
  (aluAdd_eq base (sext16 0#6)).trans (BitVec.add_zero base)

/-- A user-mode LDR or STR in an OS region raises a privilege violation. -/
theorem exec_of_user_in_os {i : Instr} {s : State} {r b : Reg} {imm6 : BitVec 6}
    (hi : i = .ldr r b imm6 ∨ i = .str r b imm6) (hu : ¬ supervisor s)
    (ho : inOS s (effectiveAddress (s.reg b) imm6)) :
    ∃ t f, exec i s = .next t ∧ t.fault = some f ∧ f.cause = .privilegeViolation := by
  obtain ⟨k, he⟩ := effect_raises_of_data_check hi (check_of_user_in_os .load hu ho)
  exact ⟨_, _, exec_of_raises he, State.latch_fault _ _, rfl⟩

/-- Settles O24: the map is read off in numbers, 0x8000 is in an OS region and 0x7FFF in UserData. -/
theorem defaultMapRangesAndBoundary : Obligations.DefaultMapRangesAndBoundary := by
  refine ⟨classify_defaultMemMap, fun s r b hmap hu hf => ⟨fun hb => ?os, fun hb => ?user⟩⟩
  case os =>
    have ho : inOS s (effectiveAddress (s.reg b) 0#6) := by
      rw [effectiveAddress_zero, hb, inOS, regionAt, hmap, classify_defaultMemMap]
      exact .inl rfl
    exact ⟨exec_of_user_in_os (.inl rfl) hu ho, exec_of_user_in_os (.inr rfl) hu ho⟩
  case user =>
    have hlegal : dataLegal s (effectiveAddress (s.reg b) 0#6) := by
      rw [effectiveAddress_zero, hb, dataLegal, regionAt, hmap, classify_defaultMemMap]
      exact .inl rfl
    have hcompletes := fun i hi => (dataAccessIsLegalOnlyInADataRegion s r b 0#6 hf i hi).1.mpr hlegal
    exact ⟨hcompletes _ (.inl rfl), hcompletes _ (.inr rfl)⟩

/-! ## Every map -/

/-- The map that lists every address below `n`, in order, with its class under `f`. -/
def mapOf (f : Word → Region) (n : Nat) : MemMap :=
  { base := f 0#16, changes := (List.range n).map fun k => (BitVec.ofNat 16 k, f (BitVec.ofNat 16 k)) }

theorem classify_mapOf_succ (f : Word → Region) (n : Nat) (a : Word) : classify (mapOf f (n + 1)) a =
    if BitVec.ofNat 16 n ≤ a then f (BitVec.ofNat 16 n) else classify (mapOf f n) a := by
  simp [classify, mapOf, List.range_succ]

/-- With the addresses up to `n` listed, `a` has its own class, or `n`'s where it lies above. -/
theorem classify_mapOf (f : Word → Region) {n : Nat} (hn : n < 65536) (a : Word) :
    classify (mapOf f (n + 1)) a = f (BitVec.ofNat 16 (min a.toNat n)) := by
  induction n with
  | zero => simp [classify, mapOf]
  | succ n ih =>
    have hle : BitVec.ofNat 16 (n + 1) ≤ a ↔ n + 1 ≤ a.toNat := by
      rw [BitVec.le_def, BitVec.toNat_ofNat, Nat.mod_eq_of_lt hn]
    rw [classify_mapOf_succ, ih (by omega)]
    by_cases h : n + 1 ≤ a.toNat
    · rw [if_pos (hle.mpr h), Nat.min_eq_right h]
    · rw [if_neg (mt hle.mp h), Nat.min_eq_left (by omega), Nat.min_eq_left (by omega)]

/-- Settles O25: the map that lists all 65536 addresses. -/
theorem everyMemoryMapCanBeGiven : Obligations.EveryMemoryMapCanBeGiven := by
  refine fun f => ⟨mapOf f 65536, fun a => ?_⟩
  rw [classify_mapOf f (n := 65535) (by decide) a, Nat.min_eq_left (Nat.le_of_lt_succ a.isLt), BitVec.ofNat_toNat,
    BitVec.setWidth_eq]

end Sys2Proof.Machine
end

section
/-! PROOFS. JSR, JSRR, TRAP and RTI (48_control_transfer.md R192 to R195, 60_exceptions.md R207, R209): the link, the
mode and the target. -/

namespace Sys2Proof.Machine

open Sys2Proof.Claims

/-! ## The link -/

/-- R7 and the flags, told by what a state holds after the link, and the frame of the link. -/
theorem linksR7_of_link {s t : State} (hreg : t.reg linkReg = s.nextPc)
    (hregs : ∀ r, r ≠ linkReg → t.reg r = s.reg r)
    (hpsr : ∀ k, k < 15 → t.psr.getLsbD k = (withNzp s.psr (cc (s16 s.nextPc))).getLsbD k)
    (hmem : ∀ a, t.word a = s.word a) (hfault : t.fault = s.fault) (hparams : t.params = s.params) :
    linksR7 s t := by
  have hnext : s.nextPc.toNat = (s.pc.toNat + 1) % 65536 := following_toNat s.pc
  obtain ⟨hN, hZ, hP, hrest⟩ := onlyTheListedInstructionsWriteFlags.1 s.psr (s16 s.nextPc)
  rw [linksR7, ← hnext, signed_toNat, flagsTell, hpsr 2 (by decide), hpsr 1 (by decide), hpsr 0 (by decide)]
  exact ⟨congrArg BitVec.toNat hreg, ⟨hN, hZ, hP⟩, hregs, fun k hk hk15 => (hpsr k hk15).trans (hrest k hk),
    hmem, hfault, hparams⟩

/-- JSR and JSRR: the link with the mode kept, and pc at the target. -/
theorem exec_of_linkAndGo {i : Instr} {s : State} {target : Word}
    (h : effect i s = .commits (linkAndGo s target)) :
    ∃ t, exec i s = .next t ∧ linksR7 s t ∧ t.psr.getLsbD 15 = s.psr.getLsbD 15 ∧ t.pc = target := by
  obtain ⟨t, ht⟩ := exec_next i s
  have hlink : conclude s (.commits (linkAndGo s target)) = .next t := by rwa [exec_eq_conclude, h] at ht
  obtain ⟨hreg, hregs, hpsr, hmem, hpc, hfault, hparams⟩ := linkAndGo_spec hlink
  refine ⟨t, ht, linksR7_of_link hreg hregs (fun k _ => by rw [hpsr]) hmem hfault hparams, ?_, hpc⟩
  rw [hpsr, withNzp_getLsbD, if_neg (by decide)]

/-! ## JSR -/

/-- The half of memory that an address lies in, as a number. -/
theorem and_top_toNat (pc : Word) : (pc &&& 0x8000#16).toNat = if 32768 ≤ pc.toNat then 32768 else 0 := by
  have hlt := pc.isLt
  have hand : (pc &&& 0x8000#16).toNat = (pc.toNat.testBit 15).toNat * 2 ^ 15 := Nat.and_two_pow pc.toNat 15
  rw [hand, Nat.testBit_eq_decide_div_mod_eq]
  by_cases h : 32768 ≤ pc.toNat
  · rw [if_pos h, decide_eq_true (by omega)]
    rfl
  · rw [if_neg h, decide_eq_false (by omega)]
    rfl

/-- R193 as a number: 16 times the field, in the half of memory of pc. -/
theorem jsrTarget_toNat (pc : Word) (imm11 : BitVec 11) :
    (jsrTarget pc imm11).toNat = (if 32768 ≤ pc.toNat then 32768 else 0) + imm11.toNat * 16 := by
  have himm := imm11.isLt
  have hshift : (zext16 imm11 <<< 4).toNat = imm11.toNat * 16 := by
    rw [BitVec.toNat_shiftLeft, zext16, BitVec.toNat_setWidth_of_le (by decide), Nat.shiftLeft_eq]
    omega
  have hor := Nat.two_pow_add_eq_or_of_lt (b := imm11.toNat * 16) (i := 15) (by omega) 1
  rw [jsrTarget, BitVec.toNat_or, and_top_toNat, hshift]
  split
  · exact hor.symm
  · rw [Nat.zero_or, Nat.zero_add]

/-- Settles O43: the selector I[11] picks the row, and JSR's effect is the link and the jump to its target. -/
theorem jsrLinksAndGoesToItsAlignedTarget : Obligations.JsrLinksAndGoesToItsAlignedTarget := by
  refine ⟨rowDecodes_jsr, fun s imm11 => ?_⟩
  obtain ⟨t, ht, hlink, hmode, hpc⟩ := exec_of_linkAndGo (i := .jsr imm11) (s := s) rfl
  exact ⟨t, ht, hlink, hmode, by rw [hpc, jsrTarget_toNat]⟩

/-! ## JSRR -/

/-- The target of JSRR under the order that `JSRR_LINK_ORDER` gives. -/
def jsrrTarget (s : State) (a : Reg) : Word :=
  match s.params.jsrrLinkOrder with
  | .readBeforeLink => s.reg a
  | .linkBeforeRead => readReg (writeReg s.regs linkReg s.nextPc) a

theorem effect_jsrr (a : Reg) (s : State) : effect (.jsrr a) s = .commits (linkAndGo s (jsrrTarget s a)) := by
  simp only [effect, effJsrr, jsrrTarget]
  cases s.params.jsrrLinkOrder <;> rfl

theorem jsrrTarget_eq_reg {s : State} {a : Reg} (h : a ≠ 7#3 ∨ s.params.jsrrLinkOrder = .readBeforeLink) :
    jsrrTarget s a = s.reg a := by
  unfold jsrrTarget
  cases ho : s.params.jsrrLinkOrder with
  | readBeforeLink => rfl
  | linkBeforeRead => exact readReg_writeReg_other _ _ (h.resolve_right (by simp [ho]))

theorem jsrrTarget_link {s : State} (h : s.params.jsrrLinkOrder = .linkBeforeRead) :
    jsrrTarget s 7#3 = s.nextPc := by
  simp only [jsrrTarget, h]
  exact readReg_writeReg_same _ _ _

/-- Settles O44: the selector I[11] picks the row, and JSRR's effect is the link and the jump to the register, read
before or after the link is written. -/
theorem jsrrLinksAndGoesToItsRegister : Obligations.JsrrLinksAndGoesToItsRegister := by
  refine ⟨rowDecodes_jsrr, fun s a => ?_⟩
  obtain ⟨t, ht, hlink, hmode, hpc⟩ := exec_of_linkAndGo (effect_jsrr a s)
  refine ⟨t, ht, hlink, hmode, fun h => hpc.trans (jsrrTarget_eq_reg h), ?_⟩
  rintro rfl ho
  rw [hpc, jsrrTarget_link ho]
  exact following_toNat s.pc

/-! ## TRAP -/

theorem trapTarget_toNat (uimm8 : BitVec 8) : (trapTarget uimm8).toNat = 32768 + uimm8.toNat := by
  have hor := Nat.two_pow_add_eq_or_of_lt (b := uimm8.toNat) (i := 15) (by omega) 1
  rw [trapTarget, BitVec.toNat_or, zext16, BitVec.toNat_setWidth_of_le (by decide)]
  exact hor.symm

/-- Settles O45: the opcode picks the row, and TRAP's effect is the link, supervisor mode and the trap's target. -/
theorem trapEntersTheSupervisor : Obligations.TrapEntersTheSupervisor := by
  refine ⟨rowDecodes_trap, fun s uimm8 => ?_⟩
  obtain ⟨t, ht⟩ := exec_next (.trap uimm8) s
  obtain ⟨hreg, hregs, hpsr, hmem, hpc, hfault, hparams⟩ := takeTrap_spec ht
  refine ⟨t, ht, linksR7_of_link hreg hregs (fun k hk => ?_) hmem hfault hparams, ?_, ?_⟩
  · rw [hpsr, withPriv_getLsbD, if_neg (Nat.ne_of_lt hk)]
  · rw [supervisor, hpsr, withPriv_getLsbD, if_pos rfl]
  · rw [hpc, trapTarget_toNat]

/-! ## RTI -/

/-- Settles O46: the opcode picks the row, and RTI's effect writes pc and PSR[15] alone. -/
theorem rtiReturnsToUserMode : Obligations.RtiReturnsToUserMode := by
  refine ⟨rowDecodes_rti, fun s => ?_⟩
  obtain ⟨t, ht⟩ := exec_next .rti s
  obtain ⟨hpc, hregs, hpsr, hmem, hfault, hparams⟩ := returnFromTrap_spec ht
  refine ⟨t, ht, hpc, ?_, fun k hk => ?_, hregs, hmem, hfault, hparams⟩
  · rw [supervisor, hpsr, withPriv_getLsbD, if_pos rfl]
    exact Bool.false_ne_true
  · rw [hpsr, withPriv_getLsbD, if_neg (Nat.ne_of_lt hk)]

/-- Settles O18: JSR, JSRR and TRAP link, and RTI goes to R7. -/
theorem registerSevenIsTheLinkRegister : Obligations.RegisterSevenIsTheLinkRegister := by
  obtain ⟨-, hjsr⟩ := jsrLinksAndGoesToItsAlignedTarget
  obtain ⟨-, hjsrr⟩ := jsrrLinksAndGoesToItsRegister
  obtain ⟨-, htrap⟩ := trapEntersTheSupervisor
  obtain ⟨-, hrti⟩ := rtiReturnsToUserMode
  refine fun s t => ⟨?_, fun h => (holds_of_exec (hrti s) h).1⟩
  rintro (⟨imm11, h⟩ | ⟨b, h⟩ | ⟨u, h⟩)
  · obtain ⟨⟨hlink, -⟩, -⟩ := holds_of_exec (hjsr s imm11) h
    exact hlink
  · obtain ⟨⟨hlink, -⟩, -⟩ := holds_of_exec (hjsrr s b) h
    exact hlink
  · obtain ⟨⟨hlink, -⟩, -⟩ := holds_of_exec (htrap s u) h
    exact hlink

/-- Settles O47: RTI goes to the R7 that the TRAP left, its pc + 1, and keeps PSR[14:0]. -/
theorem rtiReturnsPastTheTrap : Obligations.RtiReturnsPastTheTrap := by
  intro s t h u uimm8 htrap hlink hrti
  obtain ⟨-, hreturn⟩ := rtiReturnsToUserMode
  obtain ⟨hpc, hmode, hpsr, -⟩ := holds_of_exec (hreturn h) hrti
  have hr7 := (registerSevenIsTheLinkRegister s t).1 (.inr (.inr ⟨uimm8, htrap⟩))
  refine ⟨?_, hmode, fun k hk => hpsr k (by omega)⟩
  rw [hpc, hlink, hr7]

end Sys2Proof.Machine
end

section
/-! PROOFS. Words and labels: the words written out from the formats (30_encoding.md R62), the word 0x0000 and its
trace line (70_reset_and_hazards.md R246), and the operands that name a label (30_encoding.md R71, R72). -/

namespace Sys2Proof.Machine

open Sys2Proof.Claims

/-! ## Words -/

/-- Settles O5: each word is evaluated. -/
theorem writtenOutWordsDecode : Obligations.WrittenOutWordsDecode := by
  unfold Obligations.WrittenOutWordsDecode
  decide

/-- The empty mask is never taken (R121). -/
theorem effect_nop (imm9 : BitVec 9) (s : State) : effect (.nop imm9) s = jumpTo s.nextPc := by
  have hbranch : effect (.nop imm9) s = branch 0b000#3 imm9 s := rfl
  rw [hbranch, branch_eq, if_neg (by simp)]

/-- Settles O53: the word 0x0000 is a NOP, a jump to pc + 1 whose record has no register, flag or data write. -/
theorem zeroWordLeavesThePlaceholderLine : Obligations.ZeroWordLeavesThePlaceholderLine := by
  intro s hf hfetch hword
  have hdecode : decode (s.word s.pc) = .nop 0#9 := by
    rw [hword]
    decide
  have heffect : effect (decode (s.word s.pc)) s = jumpTo s.nextPc := by
    rw [hdecode, effect_nop]
  rw [output_of_commits hf ((check_fetch_none_iff s s.pc).mpr hfetch) heffect]
  refine ⟨_, rfl, ?_, movesPc_of_jumpTo heffect (following_toNat s.pc)⟩
  simp only [traceFields, commitRecord, List.drop_succ_cons, List.drop_zero, Option.map_none, Option.getD_none,
    Option.isSome_none]
  decide

/-! ## Label operands -/

/-- A field assembled for a label extends to the distance from pc + 1. -/
theorem sext16_of_labelOffset {n : Nat} {pc l : Word} {f : BitVec n} (h : labelOffset n pc l = some f) :
    sext16 f = l - following pc := by
  unfold labelOffset at h
  dsimp only at h
  split at h
  · next hfits => rw [← Option.some.inj h, hfits, aluSub_eq]
  · exact nomatch h

theorem relativeTarget_of_label {n : Nat} {pc l : Word} {f : BitVec n} (h : labelOffset n pc l = some f) :
    relativeTarget pc f = l :=
  calc relativeTarget pc f = following pc + sext16 f := by rw [relativeTarget_eq_add, following_eq_add_one, sext16]
    _ = l := by rw [sext16_of_labelOffset h, BitVec.add_comm, BitVec.sub_add_cancel]

/-- Truncating to the field undoes the sign extension. -/
theorem setWidth_sext16 {n : Nat} (hn : n ≤ 16) (f : BitVec n) : (sext16 f).setWidth n = f := by
  apply BitVec.eq_of_getLsbD_eq
  intro k hk
  rw [BitVec.getLsbD_setWidth, sext16_getLsbD f (by omega), if_pos hk, decide_eq_true hk, Bool.true_and]

theorem labelOffset_of_target {n : Nat} (hn : n ≤ 16) (pc : Word) (f : BitVec n) :
    labelOffset n pc (pc + 1#16 + f.signExtend 16) = some f := by
  have hoffset : aluSub (pc + 1#16 + f.signExtend 16) (following pc) = sext16 f := by
    rw [aluSub_eq, following_eq_add_one, BitVec.add_comm, BitVec.add_sub_cancel, sext16]
  unfold labelOffset
  dsimp only
  rw [hoffset, setWidth_sext16 hn, if_pos rfl]

theorem getLsbD_top (v : Word) : v.getLsbD 15 = decide (32768 ≤ v.toNat) :=
  (BitVec.msb_eq_getLsbD_last v).symm.trans (BitVec.msb_eq_decide v)

/-- A JSR whose field is L[14:4] of an aligned label in pc's half of memory goes to the label. -/
theorem jsrTarget_of_label {pc l : Word} {f : BitVec 11} (h : subroutineField l = some f)
    (htop : l.getLsbD 15 = pc.getLsbD 15) : jsrTarget pc f = l := by
  unfold subroutineField at h
  split at h
  · next hlow =>
    obtain rfl := Option.some.inj h
    have hlow : l.toNat % 16 = 0 := by simpa using congrArg BitVec.toNat hlow
    have hlt := l.isLt
    have hhalf : 32768 ≤ l.toNat ↔ 32768 ≤ pc.toNat := by
      rwa [getLsbD_top, getLsbD_top, decide_eq_decide] at htop
    apply BitVec.eq_of_toNat_eq
    rw [jsrTarget_toNat, BitVec.extractLsb'_toNat, Nat.shiftRight_eq_div_pow]
    split <;> omega
  · exact nomatch h

/-! ## Constants -/

/-- LC's two immediates are the bytes of the constant. -/
theorem bytes_of_loadConstant (v : Word) :
    v.extractLsb' 8 8 ++ ((v.extractLsb' 0 8).setWidth 9).extractLsb' 0 8 = v := by
  have hlow : ((v.extractLsb' 0 8).setWidth 9).extractLsb' 0 8 = v.extractLsb' 0 8 := by
    apply BitVec.eq_of_getLsbD_eq
    intro k hk
    have hk9 : k < 9 := by omega
    simp [hk, hk9]
  rw [hlow, BitVec.extractLsb'_append_extractLsb'_eq_extractLsb' (by decide)]
  exact BitVec.extractLsb'_eq_self

/-- Settles O54: a label's field extends to the distance from pc + 1, JSR's is cut from the aligned label, and LC's
immediates are the constant's two bytes. -/
theorem labelsReachTheirTargets : Obligations.LabelsReachTheirTargets := by
  refine ⟨fun s l f hf hflags => ?br, fun s l f hf => ?jmp, fun pc f g => ?field, fun s t l f hf htop h => ?jsr,
    fun s d v => ?lc⟩
  case br =>
    have hmask : ∀ flags : Nzp, flags ≠ 0#3 → 0b111#3 &&& flags ≠ 0b000#3 := by decide
    have heffect : effect (.brnzp f) s = jumpTo (relativeTarget s.pc f) :=
      (branch_eq 0b111#3 f s).trans (congrArg jumpTo (if_pos (hmask _ hflags)))
    exact movesPc_of_jumpTo heffect (congrArg BitVec.toNat (relativeTarget_of_label hf))
  case jmp => exact movesPc_of_jumpTo rfl (congrArg BitVec.toNat (relativeTarget_of_label hf))
  case field => exact ⟨labelOffset_of_target (by decide) pc f, labelOffset_of_target (by decide) pc g⟩
  case jsr =>
    obtain ⟨-, -, hpc⟩ := holds_of_exec (exec_of_linkAndGo (i := .jsr f) rfl) h
    exact hpc.trans (jsrTarget_of_label hf htop)
  case lc =>
    obtain ⟨t, u, ht, hu, hd, -⟩ :=
      constThenHiconstLoadsAnyWord s d ((v.extractLsb' 0 8).setWidth 9) (v.extractLsb' 8 8)
    exact ⟨_, _, t, u, rfl, ht, hu, hd.trans (bytes_of_loadConstant v)⟩

end Sys2Proof.Machine
end
